-- ==== Sys2Proof/Word.lean ====
section
/-! DEFINITION. Word.lean: the words of the machine (00_scope.md R8, R10). -/

namespace Sys2Proof

/-- A byte: every register, memory cell and operand (R10, R20, R60). -/
abbrev Byte := BitVec 8

/-- The program counter's word: 9 bits, so that it can hold 256, one past the last cell (R27). -/
abbrev PcWord := BitVec 9

/-- A register index that has passed the range check: 0 to 7 (R20, R134). -/
abbrev Reg := Fin 8

end Sys2Proof
end

