-- ==== Sys2Proof/Syntax.lean ====
section
/-! DEFINITION. Syntax.lean: the 22 instructions of spec/opcode_table.json (30_encoding.md R90, R96, R97).
A register operand is the WHOLE operand byte (R92): a byte of 8 or more is an operand the range check of R134 refuses. -/

namespace Sys2Proof

/-- One constructor per row of the opcode table. -/
inductive Instr where
  -- R96: the base instructions, always defined
  | hlt
  | ldi (ra imm : Byte)
  | prn (ra : Byte)
  | mul (ra rb : Byte)
  | add (ra rb : Byte)
  | push (ra : Byte)
  | pop (ra : Byte)
  | call (ra : Byte)
  | ret
  | cmp (ra rb : Byte)
  | jmp (ra : Byte)
  | jeq (ra : Byte)
  | jne (ra : Byte)
  -- R97: the extension instructions, defined when EXT_ALU is true
  | sub (ra rb : Byte)
  | div (ra rb : Byte)
  | mod (ra rb : Byte)
  | and (ra rb : Byte)
  | or (ra rb : Byte)
  | xor (ra rb : Byte)
  | not (ra : Byte)
  | shl (ra rb : Byte)
  | shr (ra rb : Byte)
deriving DecidableEq, Repr

end Sys2Proof
end

