-- ==== Sys2Proof/WellFormed.lean ====
section
/-! DEFINITION. WellFormed.lean: the operand checks of an instruction as syntax (30_encoding.md R92, R93, R104): each register
operand is a byte of at most 7; the immediate of LDI has no illegal value. -/

namespace Sys2Proof

/-- A register-index operand byte is legal when it is at most 7 (R92). -/
def isRegByte (b : Byte) : Bool := decide (b.toNat < 8)

/-- The register-index operands of an instruction, in operand order (R90, R134). -/
def Instr.regOperands : Instr → List Byte
  | .hlt => []
  | .ldi ra _ => [ra]
  | .prn ra => [ra]
  | .mul ra rb => [ra, rb]
  | .add ra rb => [ra, rb]
  | .push ra => [ra]
  | .pop ra => [ra]
  | .call ra => [ra]
  | .ret => []
  | .cmp ra rb => [ra, rb]
  | .jmp ra => [ra]
  | .jeq ra => [ra]
  | .jne ra => [ra]
  | .sub ra rb => [ra, rb]
  | .div ra rb => [ra, rb]
  | .mod ra rb => [ra, rb]
  | .and ra rb => [ra, rb]
  | .or ra rb => [ra, rb]
  | .xor ra rb => [ra, rb]
  | .not ra => [ra]
  | .shl ra rb => [ra, rb]
  | .shr ra rb => [ra, rb]

/-- Every register operand names one of R0 to R7 (R92, R134). -/
def Instr.wellFormed (i : Instr) : Bool := i.regOperands.all isRegByte

/-- The instruction belongs to the extension of R97, defined only when `EXT_ALU` is true. -/
def Instr.isExt : Instr → Bool
  | .hlt => false
  | .ldi _ _ => false
  | .prn _ => false
  | .mul _ _ => false
  | .add _ _ => false
  | .push _ => false
  | .pop _ => false
  | .call _ => false
  | .ret => false
  | .cmp _ _ => false
  | .jmp _ => false
  | .jeq _ => false
  | .jne _ => false
  | .sub _ _ => true
  | .div _ _ => true
  | .mod _ _ => true
  | .and _ _ => true
  | .or _ _ => true
  | .xor _ _ => true
  | .not _ => true
  | .shl _ _ => true
  | .shr _ _ => true

end Sys2Proof
end

