-- ==== Sys2Proof/Decode.lean ====
section
/-! DEFINITION. Decode.lean: the decoder of 30_encoding.md R90 to R105 and 40_execute_cycle.md R133, and the encoder.
PRESUMED (notes/assumptions/2.md, unsafe): the opcode VALUES are the public LS-8 values that the spec adopts (R96, R97,
decisions D1, D15); the source document gives none. -/

namespace Sys2Proof

/-- The instruction formats of R90, each with the instruction its operand bytes make. -/
inductive Shape where
  /-- Z: the opcode alone. -/
  | z (i : Instr)
  /-- R: one register operand. -/
  | r (mk : Byte → Instr)
  /-- RR: two register operands. -/
  | rr (mk : Byte → Byte → Instr)
  /-- RI: a register operand and an immediate byte. -/
  | ri (mk : Byte → Byte → Instr)

/-- How many operand bytes a format declares (R90). -/
def Shape.operandCount : Shape → Nat
  | .z _ => 0
  | .r _ => 1
  | .rr _ => 2
  | .ri _ => 2

/-- A row of the opcode tables of R96 and R97. -/
structure OpRow where
  /-- the opcode byte, matched in full (R98) -/
  opcode : Byte
  /-- defined only when `EXT_ALU` is true -/
  ext : Bool
  /-- the format and its instruction -/
  shape : Shape

/-- The base opcode assignment (R96). -/
def baseRows : List OpRow :=
  [ ⟨0x01, false, .z .hlt⟩,
    ⟨0x82, false, .ri .ldi⟩,
    ⟨0x47, false, .r .prn⟩,
    ⟨0xA2, false, .rr .mul⟩,
    ⟨0xA0, false, .rr .add⟩,
    ⟨0x45, false, .r .push⟩,
    ⟨0x46, false, .r .pop⟩,
    ⟨0x50, false, .r .call⟩,
    ⟨0x11, false, .z .ret⟩,
    ⟨0xA7, false, .rr .cmp⟩,
    ⟨0x54, false, .r .jmp⟩,
    ⟨0x55, false, .r .jeq⟩,
    ⟨0x56, false, .r .jne⟩ ]

/-- The extension opcode assignment (R97). -/
def extRows : List OpRow :=
  [ ⟨0xA1, true, .rr .sub⟩,
    ⟨0xA3, true, .rr .div⟩,
    ⟨0xA4, true, .rr .mod⟩,
    ⟨0xA8, true, .rr .and⟩,
    ⟨0xAA, true, .rr .or⟩,
    ⟨0xAB, true, .rr .xor⟩,
    ⟨0x69, true, .r .not⟩,
    ⟨0xAC, true, .rr .shl⟩,
    ⟨0xAD, true, .rr .shr⟩ ]

/-- Both tables (spec/opcode_table.json). -/
def opcodeTable : List OpRow := baseRows ++ extRows

/-- The row of an opcode byte among the rows `EXT_ALU` enables: the full byte is compared, never a sub-field (R95, R98). -/
def findShape (ext : Bool) (op : Byte) : Option Shape :=
  (opcodeTable.find? fun row => row.opcode == op && (!row.ext || ext)).map (·.shape)

/-- Why the decoder gives no instruction, each by its own name. -/
inductive DecodeError where
  /-- there is no opcode byte: the fetch address is past the last cell (R131) -/
  | noOpcode
  /-- an opcode byte with no row (R103) -/
  | unknownOpcode (op : Byte)
  /-- an operand byte the row declares lies past address 255 (R133) -/
  | operandAddress (op : Byte)
deriving DecidableEq, Repr

/-- The instruction of a format, once each declared operand slot is present: slot 1 is looked at before slot 2 (R133). -/
def Shape.build (op : Byte) : Shape → Option Byte → Option Byte → Except DecodeError Instr
  | .z i, _, _ => .ok i
  | .r mk, some b1, _ => .ok (mk b1)
  | .r _, none, _ => .error (.operandAddress op)
  | .rr mk, some b1, some b2 => .ok (mk b1 b2)
  | .rr _, none, _ => .error (.operandAddress op)
  | .rr _, some _, none => .error (.operandAddress op)
  | .ri mk, some b1, some b2 => .ok (mk b1 b2)
  | .ri _, none, _ => .error (.operandAddress op)
  | .ri _, some _, none => .error (.operandAddress op)

/-- The decode function of R98 and the operand-address check of R133. A slot is `none` when its valid bit is 0 (R36, R66).
An unknown opcode is reported before any operand is looked at, and a slot no format declares is never looked at (R94). -/
def decode (ext : Bool) (op : Byte) (b1 b2 : Option Byte) : Except DecodeError Instr :=
  match findShape ext op with
  | none => .error (.unknownOpcode op)
  | some sh => sh.build op b1 b2

/-- The decoder on a sequence of bytes at increasing addresses (R67, R90); bytes after the instruction are not looked at. -/
def decodeBytes (ext : Bool) : List Byte → Except DecodeError Instr
  | [] => .error .noOpcode
  | op :: rest => decode ext op rest[0]? rest[1]?

/-! ## The encoder -/

/-- The opcode byte of an instruction (R96, R97). -/
def Instr.opcode : Instr → Byte
  | .hlt => 0x01
  | .ldi _ _ => 0x82
  | .prn _ => 0x47
  | .mul _ _ => 0xA2
  | .add _ _ => 0xA0
  | .push _ => 0x45
  | .pop _ => 0x46
  | .call _ => 0x50
  | .ret => 0x11
  | .cmp _ _ => 0xA7
  | .jmp _ => 0x54
  | .jeq _ => 0x55
  | .jne _ => 0x56
  | .sub _ _ => 0xA1
  | .div _ _ => 0xA3
  | .mod _ _ => 0xA4
  | .and _ _ => 0xA8
  | .or _ _ => 0xAA
  | .xor _ _ => 0xAB
  | .not _ => 0x69
  | .shl _ _ => 0xAC
  | .shr _ _ => 0xAD

/-- The operand bytes of an instruction, in encoding order (R90, R110). -/
def Instr.operandBytes : Instr → List Byte
  | .hlt => []
  | .ldi ra imm => [ra, imm]
  | .prn ra => [ra]
  | .mul ra rb => [ra, rb]
  | .add ra rb => [ra, rb]
  | .push ra => [ra]
  | .pop ra => [ra]
  | .call ra => [ra]
  | .ret => []
  | .cmp ra rb => [ra, rb]
  | .jmp ra => [ra]
  | .jeq ra => [ra]
  | .jne ra => [ra]
  | .sub ra rb => [ra, rb]
  | .div ra rb => [ra, rb]
  | .mod ra rb => [ra, rb]
  | .and ra rb => [ra, rb]
  | .or ra rb => [ra, rb]
  | .xor ra rb => [ra, rb]
  | .not ra => [ra]
  | .shl ra rb => [ra, rb]
  | .shr ra rb => [ra, rb]

/-- The bytes of an instruction: the opcode, then the operands, at increasing addresses (R90). -/
def encode (i : Instr) : List Byte := i.opcode :: i.operandBytes

/-! ## A word of the opcode table -/

/-- The three bytes that hold a table word: bit 0 of `w` is the least significant bit of the first byte, and every bit from
`nbits` on is 0. Three bytes are the longest instruction. -/
def tableBytes (nbits w : Nat) : List Byte :=
  let v := w % 2 ^ nbits
  [BitVec.ofNat 8 v, BitVec.ofNat 8 (v / 2 ^ 8), BitVec.ofNat 8 (v / 2 ^ 16)]

/-- What the decoder reads from a table word. The table holds the rows of both R96 and R97, so it is read with `EXT_ALU` true
(the base rows decode alike under either setting). -/
def decodeTableWord (nbits w : Nat) : Option Instr :=
  match decodeBytes true (tableBytes nbits w) with
  | .ok i => some i
  | .error _ => none

end Sys2Proof
end

