-- ==== Sys2Proof/Config.lean ====
section
/-! DEFINITION. Config.lean: the two parameters the spec gives the model as arguments (00_scope.md R9).
"No other behaviour of the block depends on a parameter." They stand in State (field cfg), so that a statement about every
state is a statement about every value of the parameters, and no step changes them. -/

namespace Sys2Proof

/-- The parameters of R9. -/
structure Config where
  /-- `EXT_ALU`: decode the nine extension ALU instructions (R97, R200 to R208). -/
  extAlu : Bool
  /-- `REG_RESET`: what R0 to R5 hold after a reset, an arbitrary byte each (R23, R321). -/
  regReset : Vector Byte 6
deriving DecidableEq, Repr

/-- The parameters of `State.reset`. `EXT_ALU` is false, the default of R9.
DESIGN CHOICE (notes/assumptions/1.md, unsafe): R9 leaves `REG_RESET` unspecified (a draw) and a reset state is one value,
so this one names 0 for R0 to R5; no statement rests on it (each holds for every `Config`). -/
def Config.default : Config where
  extAlu := false
  regReset := #v[0, 0, 0, 0, 0, 0]

end Sys2Proof
end

