-- ==== Sys2Proof/Machine/State.lean ====
section
/-! DEFINITION. Machine/State.lean: every piece of state the spec gives the block (10_state.md, 20_memory.md, 70_reset_and_hazards.md
R321), as plain data, and the state after reset. -/

namespace Sys2Proof.Machine

/-- The engine control state (R30). -/
inductive Engine where
  /-- reset values in place; the host may load the program image -/
  | ready
  /-- one instruction executes per step -/
  | running
  /-- terminal; nothing executes -/
  | halted
deriving DecidableEq, Repr

/-- The halt codes by name (R283); their numbers are `HaltCode.bits` in Machine/Ops.lean. -/
inductive HaltCode where
  /-- HLT executed -/
  | haltOk
  /-- opcode byte not defined -/
  | unknownOpcode
  /-- a register-index operand byte over 7 -/
  | regIndex
  /-- fetch at 256, or a declared operand past 255 -/
  | memAddr
  /-- a stack access would move SP outside 0 to 255 -/
  | spRange
  /-- CALL's return address does not fit a byte -/
  | retAddr
  /-- ALU given a tag outside its capability set -/
  | aluUnsupported
  /-- divisor 0 -/
  | divZero
deriving DecidableEq, Repr

/-- The instruction latch (R36): the opcode register IR and the two operand slots. A slot is `some b` when its valid bit V1 or V2
is 1 and `none` when it is 0: the spec leaves the byte of an invalid slot unspecified, and no rule reads it (R66). -/
structure Latch where
  ir : Byte
  b1 : Option Byte
  b2 : Option Byte
deriving DecidableEq, Repr

/-- The input ports the host drives (R40): what the next step samples. No step changes them. -/
structure Inputs where
  /-- `rst`: synchronous reset (R320) -/
  rst : Bool
  /-- `run`: READY to RUNNING (R324) -/
  run : Bool
  /-- `load_we`: host write strobe into memory, honoured in READY only -/
  loadWe : Bool
  /-- `load_addr` -/
  loadAddr : Byte
  /-- `load_data` -/
  loadData : Byte
  /-- `dbg_addr`: host read address, for READY and HALTED -/
  dbgAddr : Byte
deriving DecidableEq, Repr

/-- No port driven. -/
def Inputs.idle : Inputs :=
  { rst := false, run := false, loadWe := false, loadAddr := 0, loadData := 0, dbgAddr := 0 }

/-- The machine. -/
structure State where
  /-- R0 to R7; R6 is the flags register FL and R7 the stack pointer SP (R20 to R22) -/
  regs : Vector Byte 8
  /-- the program counter (R27) -/
  pc : PcWord
  /-- the 256 memory cells: (address, byte) pairs in canonical form (`Memory.wf` in Machine/Ops.lean); an unlisted cell holds 0 (R60) -/
  mem : List Host.Cell
  /-- the engine control state (R30) -/
  engine : Engine
  /-- the halt record's code (R32) -/
  haltCode : BitVec 4
  /-- the halt record's PC (R32) -/
  haltPc : PcWord
  /-- the halt record's opcode byte (R32) -/
  haltOp : Byte
  /-- the output stream, first byte emitted first (R33) -/
  out : List Byte
  /-- the output port: `some v` is out_valid = 1 with out_data = v, `none` is out_valid = 0 (R40, R163) -/
  outPort : Option Byte
  /-- the instruction latch (R36) -/
  latch : Latch
  /-- the input ports (R40) -/
  inputs : Inputs
  /-- the parameters (R9) -/
  cfg : Config
deriving DecidableEq, Repr

/-- Why a step can stop with a fault: NEVER. The spec makes every exceptional condition a halt whose entry it describes (R280, R281),
which is a NEXT state, so no meaning faults and the type has no constructor (safe: there is nothing to raise). -/
inductive Fault where
deriving DecidableEq, Repr

/-- Why a run can be refused. No step is: the one refusal that is raised is the host's, of an image. -/
inductive Refusal where
  /-- Raised by an arm of `exec` for an instruction that has no meaning yet; no arm raises it (safe: the run stops). -/
  | notModelled (mnemonic : String)
  /-- Raised by `loadImage` (Machine/HostLoad.lean) for an image with a byte past address 255, which the host must not load (R322, U16).
  Safe: nothing is written and the run does not begin. -/
  | imageTooLong
deriving DecidableEq, Repr

/-- The state "constructed" under the given parameters (R320, R321). Memory lists nothing, so every cell holds 0.
DESIGN CHOICE (notes/assumptions/3.md, unsafe): R321 leaves the latch unspecified; it is empty here. -/
def State.resetWith (c : Config) : State where
  regs := #v[c.regReset[0], c.regReset[1], c.regReset[2], c.regReset[3], c.regReset[4], c.regReset[5], 0, 0xF4]
  pc := 0
  mem := []
  engine := .ready
  haltCode := 0
  haltPc := 0
  haltOp := 0
  out := []
  outPort := none
  latch := { ir := 0, b1 := none, b2 := none }
  inputs := .idle
  cfg := c

/-- The machine right after reset, with the parameters of `Config.default` (notes/assumptions/1.md). -/
def State.reset : State := State.resetWith Config.default

end Sys2Proof.Machine
end

