-- ==== Sys2Proof/Machine/Ops.lean ====
section
/-! DEFINITION. Machine/Ops.lean: the named operations over memory, registers, the stack pointer, the program counter and the output,
and taking a halt (10_state.md, 20_memory.md, 43_stack.md, 60_exceptions.md R281). -/

namespace Sys2Proof.Machine

/-! ## Memory (20_memory.md) -/

/-- What a cell that is not listed reads as: memory is "zero-initialized at construction" (R60, R321). -/
def Memory.unlisted : Byte := 0

/-- The byte stored in a cell (R62). The address is a byte, so it always names a cell (R65). -/
def Memory.read : List Host.Cell → Byte → Byte
  | [], _ => Memory.unlisted
  | (b, w) :: m, a => if b = a.toNat then w else Memory.read m a

/-- Set a cell (R63), keeping the list's canonical form: addresses rise strictly and no cell is listed that holds `Memory.unlisted`. -/
def Memory.write : List Host.Cell → Byte → Byte → List Host.Cell
  | [], a, v => if v = Memory.unlisted then [] else [(a.toNat, v)]
  | (b, w) :: m, a, v =>
    if a.toNat < b then
      if v = Memory.unlisted then (b, w) :: m else (a.toNat, v) :: (b, w) :: m
    else if a.toNat = b then
      if v = Memory.unlisted then m else (a.toNat, v) :: m
    else (b, w) :: Memory.write m a v

/-- The canonical form from address `lo` on: addresses rise strictly, lie in 0 to 255, and no listed cell holds `Memory.unlisted`. -/
def Memory.wfFrom (lo : Nat) : List Host.Cell → Bool
  | [] => true
  | (a, v) :: m => decide (lo ≤ a) && decide (a < 256) && decide (v ≠ Memory.unlisted) && Memory.wfFrom (a + 1) m

/-- The canonical form of a memory. -/
def Memory.wf (m : List Host.Cell) : Bool := Memory.wfFrom 0 m

/-- `MemRead(a, 1)` (R62). -/
def State.memRead (s : State) (a : Byte) : Byte := Memory.read s.mem a

/-- `MemWrite(a, 1, v)` (R63). -/
def State.memWrite (s : State) (a v : Byte) : State := { s with mem := Memory.write s.mem a v }

/-! ## Registers (10_state.md R20 to R22) -/

/-- `mod256(n)` (R11, R180). -/
def mod256 (n : Nat) : Byte := BitVec.ofNat 8 n

/-- `x[r]`. No register is hardwired (R20). -/
def State.reg (s : State) (r : Reg) : Byte := s.regs[r]

/-- `x[r] <- v`. -/
def State.setReg (s : State) (r : Reg) (v : Byte) : State := { s with regs := s.regs.set r v }

/-- R7 plays the stack-pointer role (R21). -/
def spReg : Reg := 7

/-- R6 plays the flags role (R22). -/
def flReg : Reg := 6

/-- `SP`. -/
def State.sp (s : State) : Byte := s.reg spReg

/-- `SP <- v`. -/
def State.setSp (s : State) (v : Byte) : State := s.setReg spReg v

/-- `FL`. -/
def State.fl (s : State) : Byte := s.reg flReg

/-- `FL <- v`, the flags byte in full (R25). -/
def State.setFl (s : State) (v : Byte) : State := s.setReg flReg v

/-- `SP <- SP - 1`, which raises ERR_SP_RANGE when it would leave 0 to 255 (R230, R250, R287). -/
def decSp (s : State) : Except HaltCode State :=
  if s.sp = 0 then .error .spRange else .ok (s.setSp (s.sp - 1))

/-- `SP <- SP + 1`, which raises ERR_SP_RANGE when it would leave 0 to 255 (R231, R251, R287). -/
def incSp (s : State) : Except HaltCode State :=
  if s.sp = 255 then .error .spRange else .ok (s.setSp (s.sp + 1))

/-! ## The program counter (10_state.md R27 to R29, 44_control_transfer.md R255) -/

/-- `pc <- pc + n`: the SEQ source of R255. After the checks of R133 the sum is at most 256 (R137). -/
def State.advance (s : State) (n : Nat) : State := { s with pc := s.pc + BitVec.ofNat 9 n }

/-- `pc <- v` for a byte v: the REG and STACK sources of R255. -/
def State.jump (s : State) (v : Byte) : State := { s with pc := v.setWidth 9 }

/-! ## Output (10_state.md R33, 41_halt_load_print.md R163) -/

/-- `emit(v)`: out_valid pulses with out_data = v and the byte is appended to the output stream. -/
def State.emit (s : State) (v : Byte) : State := { s with out := s.out ++ [v], outPort := some v }

/-! ## Halting: the block's one exception entry (60_exceptions.md R280 to R283) -/

/-- The 4-bit number of a halt code (R283). -/
def HaltCode.bits : HaltCode → BitVec 4
  | .haltOk => 0
  | .unknownOpcode => 1
  | .regIndex => 2
  | .memAddr => 3
  | .spRange => 4
  | .retAddr => 5
  | .aluUnsupported => 6
  | .divZero => 7

/-- Halt entry (R281): state HALTED and the halt record latched; "Nothing else is saved or changed." `op` is the opcode byte, or 0 for a
fetch fault. No instruction returns from a halt (R282): only `rst` does (`State.onRst` in Machine/HostPort.lean). -/
def State.enterHalted (s : State) (c : HaltCode) (op : Byte) : State :=
  { s with engine := .halted, haltCode := c.bits, haltPc := s.pc, haltOp := op }

/-- Commit (R138): an instruction's rule runs on a copy of the state; if it completes, all its writes take effect together, and if it raises,
none does and the block halts with the code. -/
def commit (op : Byte) (s : State) (rule : Except HaltCode State) : Host.Outcome State Fault Refusal :=
  .next (match rule with
    | .ok t => t
    | .error c => s.enterHalted c op)

end Sys2Proof.Machine
end

