-- ==== Sys2Proof/Machine/Flags.lean ====
section
/-! DEFINITION. Machine/Flags.lean: the flags byte FL = x[6] (10_state.md R24 to R26, 42_alu.md R190, R191). -/

namespace Sys2Proof.Machine

/-- Bit 0, Equal. -/
def flagE : Byte := 0b001

/-- Bit 1, Greater. -/
def flagG : Byte := 0b010

/-- Bit 2, Less. -/
def flagL : Byte := 0b100

/-- The flags byte CMP writes: Equal, then Less, then Greater, unsigned; bits 7 to 3 are 0 (R190, R191). -/
def cmpFlags (a b : Byte) : Byte :=
  if a = b then flagE else if a.toNat < b.toNat then flagL else flagG

/-- `FL[0]`, the only condition a branch reads (R26, R262, R263). -/
def State.equalFlag (s : State) : Bool := s.fl.getLsbD 0

end Sys2Proof.Machine
end

