-- ==== Sys2Proof/Machine/Operands.lean ====
section
/-! DEFINITION. Machine/Operands.lean: the operand forms. There are two: a register index, checked (30_encoding.md R92, 40_execute_cycle.md
R134), and LDI's immediate, the whole byte unchanged (R93), which needs no operation. -/

namespace Sys2Proof.Machine

/-- The register a register-index operand byte names: the whole byte, never reduced to 3 bits. A byte over 7 raises ERR_REG_INDEX,
whether or not the instruction would use the register (R92, R134, R285). -/
def regOperand (b : Byte) : Except HaltCode Reg :=
  if h : b.toNat < 8 then .ok ⟨b.toNat, h⟩ else .error .regIndex

end Sys2Proof.Machine
end

