-- ==== Sys2Proof/Machine/Alu.lean ====
section
/-! DEFINITION. Machine/Alu.lean: the byte ALU and its instructions (42_alu.md R180 to R208). -/

namespace Sys2Proof.Machine

/-- The ALU's operation tags (R181). -/
inductive AluTag where
  | add | mul | cmp
  | sub | div | mod | and | or | xor | not | shl | shr
deriving DecidableEq, Repr

/-- The tags the ALU supports only when `EXT_ALU` is true (R181). -/
def AluTag.isExt : AluTag → Bool
  | .add => false
  | .mul => false
  | .cmp => false
  | .sub => true
  | .div => true
  | .mod => true
  | .and => true
  | .or => true
  | .xor => true
  | .not => true
  | .shl => true
  | .shr => true

/-- The result of each operation: operands are unsigned, the exact natural number is reduced modulo 256 (R180, R184). A divisor of 0
raises ERR_DIV_ZERO (R201, R202, R290). NOT ignores its second operand. The shift count is the whole byte (R207, R208).
DEDUCED (notes/assumptions/4.md, safe): the result of the CMP tag, which R181 names and R190 does not spell out, is the flags byte. -/
def aluResult : AluTag → Byte → Byte → Except HaltCode Byte
  | .add, a, b => .ok (mod256 (a.toNat + b.toNat))
  | .mul, a, b => .ok (mod256 (a.toNat * b.toNat))
  | .cmp, a, b => .ok (cmpFlags a b)
  | .sub, a, b => .ok (mod256 (a.toNat + 256 - b.toNat))
  | .div, a, b => if b = 0 then .error .divZero else .ok (mod256 (a.toNat / b.toNat))
  | .mod, a, b => if b = 0 then .error .divZero else .ok (mod256 (a.toNat % b.toNat))
  | .and, a, b => .ok (a &&& b)
  | .or, a, b => .ok (a ||| b)
  | .xor, a, b => .ok (a ^^^ b)
  | .not, a, _ => .ok (mod256 (255 - a.toNat))
  | .shl, a, b => .ok (mod256 (a.toNat * 2 ^ b.toNat))
  | .shr, a, b => .ok (mod256 (a.toNat / 2 ^ b.toNat))

/-- The ALU entry point `alu(tag, a, b)` (R181). A tag outside the enabled set raises ERR_ALU_UNSUPPORTED before any other error
(R182, R289, R292). -/
def alu (ext : Bool) (tag : AluTag) (a b : Byte) : Except HaltCode Byte :=
  if tag.isExt && !ext then .error .aluUnsupported else aluResult tag a b

/-- The rule of an ALU instruction with two registers: both operands are read, then x[ra] is written (R183). -/
def aluPair (tag : AluTag) (ra rb : Byte) (s : State) : Except HaltCode State := do
  let a ← regOperand ra
  let b ← regOperand rb
  let r ← alu s.cfg.extAlu tag (s.reg a) (s.reg b)
  .ok ((s.setReg a r).advance 3)

/-- ADD (R185). -/
def execAdd (ra rb : Byte) (s : State) : Host.Outcome State Fault Refusal :=
  commit (Instr.add ra rb).opcode s (aluPair .add ra rb s)

/-- MUL (R186). -/
def execMul (ra rb : Byte) (s : State) : Host.Outcome State Fault Refusal :=
  commit (Instr.mul ra rb).opcode s (aluPair .mul ra rb s)

/-- CMP (R190): FL in full, from the old x[ra] and x[rb]. -/
def execCmp (ra rb : Byte) (s : State) : Host.Outcome State Fault Refusal :=
  commit (Instr.cmp ra rb).opcode s do
    let a ← regOperand ra
    let b ← regOperand rb
    let f ← alu s.cfg.extAlu .cmp (s.reg a) (s.reg b)
    .ok ((s.setFl f).advance 3)

/-- SUB (R200). -/
def execSub (ra rb : Byte) (s : State) : Host.Outcome State Fault Refusal :=
  commit (Instr.sub ra rb).opcode s (aluPair .sub ra rb s)

/-- DIV (R201). -/
def execDiv (ra rb : Byte) (s : State) : Host.Outcome State Fault Refusal :=
  commit (Instr.div ra rb).opcode s (aluPair .div ra rb s)

/-- MOD (R202). -/
def execMod (ra rb : Byte) (s : State) : Host.Outcome State Fault Refusal :=
  commit (Instr.mod ra rb).opcode s (aluPair .mod ra rb s)

/-- AND (R203). -/
def execAnd (ra rb : Byte) (s : State) : Host.Outcome State Fault Refusal :=
  commit (Instr.and ra rb).opcode s (aluPair .and ra rb s)

/-- OR (R204). -/
def execOr (ra rb : Byte) (s : State) : Host.Outcome State Fault Refusal :=
  commit (Instr.or ra rb).opcode s (aluPair .or ra rb s)

/-- XOR (R205). -/
def execXor (ra rb : Byte) (s : State) : Host.Outcome State Fault Refusal :=
  commit (Instr.xor ra rb).opcode s (aluPair .xor ra rb s)

/-- NOT (R206): one register, read and written. -/
def execNot (ra : Byte) (s : State) : Host.Outcome State Fault Refusal :=
  commit (Instr.not ra).opcode s do
    let a ← regOperand ra
    let r ← alu s.cfg.extAlu .not (s.reg a) 0
    .ok ((s.setReg a r).advance 2)

/-- SHL (R207). -/
def execShl (ra rb : Byte) (s : State) : Host.Outcome State Fault Refusal :=
  commit (Instr.shl ra rb).opcode s (aluPair .shl ra rb s)

/-- SHR (R208). -/
def execShr (ra rb : Byte) (s : State) : Host.Outcome State Fault Refusal :=
  commit (Instr.shr ra rb).opcode s (aluPair .shr ra rb s)

end Sys2Proof.Machine
end

