-- ==== Sys2Proof/Machine/ControlTransfer.lean ====
section
/-! DEFINITION. Machine/ControlTransfer.lean: CALL, RET, JMP, JEQ and JNE (44_control_transfer.md R250 to R263). A target is a byte, so
it is always a fetchable address (R256). -/

namespace Sys2Proof.Machine

/-- CALL (R250): the return address must fit a byte, which is checked before SP; the target is read after the push, so `CALL R7` jumps to
the decremented SP. -/
def execCall (ra : Byte) (s : State) : Host.Outcome State Fault Refusal :=
  commit (Instr.call ra).opcode s do
    let r ← regOperand ra
    let ret := s.pc.toNat + 2
    if ret > 255 then .error .retAddr else do
      let s1 ← decSp s
      let s2 := s1.memWrite s1.sp (mod256 ret)
      .ok (s2.jump (s2.reg r))

/-- RET (R251): the popped byte is the target; SP is incremented once (90_conflicts.md C2). -/
def execRet (s : State) : Host.Outcome State Fault Refusal :=
  commit Instr.ret.opcode s do
    let s1 ← incSp s
    .ok (s1.jump (s.memRead s.sp))

/-- JMP (R261). -/
def execJmp (ra : Byte) (s : State) : Host.Outcome State Fault Refusal :=
  commit (Instr.jmp ra).opcode s do
    let r ← regOperand ra
    .ok (s.jump (s.reg r))

/-- JEQ (R262): taken when FL[0] = 1. The register operand is checked whether or not the branch is taken (R134). -/
def execJeq (ra : Byte) (s : State) : Host.Outcome State Fault Refusal :=
  commit (Instr.jeq ra).opcode s do
    let r ← regOperand ra
    .ok (if s.equalFlag then s.jump (s.reg r) else s.advance 2)

/-- JNE (R263): taken when FL[0] = 0. -/
def execJne (ra : Byte) (s : State) : Host.Outcome State Fault Refusal :=
  commit (Instr.jne ra).opcode s do
    let r ← regOperand ra
    .ok (if s.equalFlag then s.advance 2 else s.jump (s.reg r))

end Sys2Proof.Machine
end

