-- ==== Sys2Proof/Machine/HaltLoadPrint.lean ====
section
/-! DEFINITION. Machine/HaltLoadPrint.lean: HLT, LDI and PRN (41_halt_load_print.md R160 to R163). -/

namespace Sys2Proof.Machine

/-- HLT (R161): the normal halt. PC keeps the HLT's own address. -/
def execHlt (s : State) : Host.Outcome State Fault Refusal :=
  .next (s.enterHalted .haltOk Instr.hlt.opcode)

/-- LDI (R162): `x[ra] <- imm`; the immediate is the byte unchanged (R93). -/
def execLdi (ra imm : Byte) (s : State) : Host.Outcome State Fault Refusal :=
  commit (Instr.ldi ra imm).opcode s do
    let r ← regOperand ra
    .ok ((s.setReg r imm).advance 3)

/-- PRN (R163): `emit(x[ra])`. -/
def execPrn (ra : Byte) (s : State) : Host.Outcome State Fault Refusal :=
  commit (Instr.prn ra).opcode s do
    let r ← regOperand ra
    .ok ((s.emit (s.reg r)).advance 2)

end Sys2Proof.Machine
end

