-- ==== Sys2Proof/Machine/Stack.lean ====
section
/-! DEFINITION. Machine/Stack.lean: PUSH and POP (43_stack.md R230 to R233). The stack is full and descending: SP holds the address of the
top item (R232). -/

namespace Sys2Proof.Machine

/-- PUSH (R230): x[ra] is read after the decrement, so `PUSH R7` stores the decremented SP. -/
def execPush (ra : Byte) (s : State) : Host.Outcome State Fault Refusal :=
  commit (Instr.push ra).opcode s do
    let r ← regOperand ra
    let s1 ← decSp s
    .ok ((s1.memWrite s1.sp (s1.reg r)).advance 2)

/-- POP (R231): the increment follows the register write, so `POP R7` leaves the popped byte plus one; the cell is not cleared. -/
def execPop (ra : Byte) (s : State) : Host.Outcome State Fault Refusal :=
  commit (Instr.pop ra).opcode s do
    let r ← regOperand ra
    let s1 ← incSp (s.setReg r (s.memRead s.sp))
    .ok (s1.advance 2)

end Sys2Proof.Machine
end

