-- ==== Sys2Proof/Machine/Fetch.lean ====
section
/-! DEFINITION. Machine/Fetch.lean: the fetch, the operand slots and the decode of a step (40_execute_cycle.md R131 to R133). -/

namespace Sys2Proof.Machine

/-- The byte at pc + k, or none where that address is 256 or more: not an access, and it raises nothing by itself (R66, R131, R132). The
sum is never reduced (R65). -/
def State.slot (s : State) (k : Nat) : Option Byte :=
  if s.pc.toNat + k ≤ 255 then some (s.memRead (mod256 (s.pc.toNat + k))) else none

/-- What the beginning of a RUNNING step does to the state: the pulse of out_valid ends (R40: it lasts one step), and, unless the fetch itself
faults, the opcode and the two operand slots are latched (R36, R132). -/
def State.latched (s : State) : State :=
  match s.slot 0 with
  | none => { s with outPort := none }
  | some op => { s with outPort := none, latch := { ir := op, b1 := s.slot 1, b2 := s.slot 2 } }

/-- The halt code and opcode byte a decode error is reported with (R131, R133, R283). -/
def haltOfDecodeError : DecodeError → HaltCode × Byte
  | .noOpcode => (.memAddr, 0)
  | .unknownOpcode op => (.unknownOpcode, op)
  | .operandAddress op => (.memAddr, op)

/-- Fetch and decode (R131 to R133): the instruction, from the LATCHED bytes (R36), or the halt code and opcode byte to halt with. -/
def State.fetchDecode (s : State) : Except (HaltCode × Byte) Instr :=
  match s.slot 0 with
  | none => .error (haltOfDecodeError .noOpcode)
  | some _ =>
    match decode s.cfg.extAlu s.latched.latch.ir s.latched.latch.b1 s.latched.latch.b2 with
    | .ok i => .ok i
    | .error e => .error (haltOfDecodeError e)

end Sys2Proof.Machine
end

