-- ==== Sys2Proof/Machine/HostPort.lean ====
section
/-! DEFINITION. Machine/HostPort.lean: the block's boundary (10_state.md R40, R41; 70_reset_and_hazards.md R320 to R324): what the input
ports do to the state, and what the output ports show. The host drives the input ports between steps with `State.drive`. -/

namespace Sys2Proof.Machine

/-- The host sets the input ports; nothing else changes. -/
def State.drive (s : State) (p : Inputs) : State := { s with inputs := p }

/-- A step with `rst` asserted (R320): READY, every piece of state at its reset value. The ports are driven from outside and the parameters
are fixed, so both stay. DEDUCED (notes/assumptions/5.md, unsafe): each reset loads the same `REG_RESET`, which is a parameter. -/
def State.onRst (s : State) : State := { State.resetWith s.cfg with inputs := s.inputs }

/-- A step in READY (R31, R41, R322, R324): `load_we` writes a cell, and `run` starts the run.
DEDUCED (notes/assumptions/6.md, unsafe): with both asserted, the byte is written and the run starts. -/
def State.readyCycle (s : State) : State :=
  let s1 := if s.inputs.loadWe then s.memWrite s.inputs.loadAddr s.inputs.loadData else s
  if s.inputs.run then { s1 with engine := .running } else s1

/-- The encoding of `status_state` (R30). -/
def Engine.status : Engine → BitVec 2
  | .ready => 0
  | .running => 1
  | .halted => 2

/-- What the output ports show (R40). -/
structure Outputs where
  outValid : Bool
  /-- `out_data`, where out_valid is 1 -/
  outData : Option Byte
  statusState : BitVec 2
  haltCode : BitVec 4
  haltPc : PcWord
  haltOp : Byte
  /-- `dbg_data`, x[0..7] and PC: readable in READY and HALTED only (R40, R299) -/
  dbgData : Option Byte
  dbgRegs : Option (Vector Byte 8)
  dbgPc : Option PcWord
deriving DecidableEq, Repr

/-- A value the host may inspect in READY and HALTED and not in RUNNING (R40, R41). -/
def Engine.inspect {α : Type} (e : Engine) (v : α) : Option α :=
  match e with
  | .ready => some v
  | .running => none
  | .halted => some v

/-- The output ports (R40). -/
def State.outputs (s : State) : Outputs where
  outValid := s.outPort.isSome
  outData := s.outPort
  statusState := s.engine.status
  haltCode := s.haltCode
  haltPc := s.haltPc
  haltOp := s.haltOp
  dbgData := s.engine.inspect (s.memRead s.inputs.dbgAddr)
  dbgRegs := s.engine.inspect s.regs
  dbgPc := s.engine.inspect s.pc

end Sys2Proof.Machine
end

