-- ==== Sys2Proof/Machine/Step.lean ====
section
/-! DEFINITION. Machine/Step.lean: one step of the block (40_execute_cycle.md R130, R141; 10_state.md R31, R41). -/

namespace Sys2Proof.Machine

/-- One step. `rst` comes first (R320). In READY the host ports act; in HALTED nothing happens; in RUNNING one instruction is fetched, decoded
and executed, or the block halts (R130, R141). -/
def step (s : State) : Host.Outcome State Fault Refusal :=
  if s.inputs.rst then .next s.onRst
  else
    match s.engine with
    | .ready => .next s.readyCycle
    | .halted => .next s
    | .running =>
      match s.fetchDecode with
      | .error h => .next (s.latched.enterHalted h.1 h.2)
      | .ok i => exec i s.latched

/-- `s` with a table word as the next instruction to run: its three bytes stand at PC (at address 0, and PC there, where three bytes do not fit
before the end of memory), the engine is RUNNING, `rst` is low, and `EXT_ALU` is true where the word's opcode is an extension's
(notes/assumptions/7.md). -/
def State.withFetchWord (s : State) (nbits w : Nat) : State :=
  let base : PcWord := if s.pc.toNat ≤ 253 then s.pc else 0
  let needsExt := match decodeTableWord nbits w with
    | some i => i.isExt
    | none => false
  { s with
    mem := ((tableBytes nbits w).foldl (fun p b => (Memory.write p.1 (mod256 p.2) b, p.2 + 1)) (s.mem, base.toNat)).1
    pc := base
    engine := .running
    inputs := { s.inputs with rst := false }
    cfg := { s.cfg with extAlu := s.cfg.extAlu || needsExt } }

end Sys2Proof.Machine
end

