-- ==== Sys2Proof/Machine/HostLoad.lean ====
section
/-! DEFINITION. Machine/HostLoad.lean: the host's side of a run (70_reset_and_hazards.md R322, R324): loading a program image through the
input ports, and starting the run. -/

namespace Sys2Proof.Machine

/-- The input ports with one host write into memory. -/
def Inputs.load (a d : Byte) : Inputs := { Inputs.idle with loadWe := true, loadAddr := a, loadData := d }

/-- The input ports with `run` asserted. -/
def Inputs.start : Inputs := { Inputs.idle with run := true }

/-- The host writes the bytes to addresses `a`, `a + 1`, …, one a step. The address port is 8 bits wide: `loadImage` lets no byte past
address 255 come here. -/
def loadBytes : Nat → List Byte → State → Host.Outcome State Fault Refusal
  | _, [], s => .next s
  | a, b :: bs, s =>
    match step (s.drive (.load (mod256 a) b)) with
    | .next t => loadBytes (a + 1) bs t
    | .fault f => .fault f
    | .refused r => .refused r

/-- The host loads an image at address `a` (R322: at 0). An image that would reach past address 255 cannot be loaded: the host refuses it before
any write (R322, decision D20, 93_implementation_defined.md U16: "refuse"). -/
def loadImage (a : Nat) (img : List Byte) (s : State) : Host.Outcome State Fault Refusal :=
  if 256 < a + img.length then .refused .imageTooLong else loadBytes a img s

end Sys2Proof.Machine
end

