-- ==== Sys2Proof/Safety.lean ====
section
/-! DEFINITION. Safety.lean: the terms the statements are made in: a running state, the code bytes at PC, the halt record by number, the
opcode bytes of each format by value, what an instruction may write, and the invariant of the machine. -/

namespace Sys2Proof.Machine

/-- The block is RUNNING and is not being reset, so that the next step runs an instruction (R130). -/
abbrev State.runs (s : State) : Prop := s.engine = .running ∧ s.inputs.rst = false

/-- The byte k places after the byte at PC, where that is a memory cell; the sum is not reduced (R65). -/
def State.byteAt (s : State) (k : Nat) : Byte := Memory.read s.mem (BitVec.ofNat 8 (s.pc.toNat + k))

/-- The bytes lie in memory from address `a` on, none of them past address 255. -/
def codeAt (m : List Host.Cell) (a : Nat) : List Byte → Bool
  | [] => true
  | b :: bs => decide (a ≤ 255) && decide (Memory.read m (BitVec.ofNat 8 a) = b) && codeAt m (a + 1) bs

/-- The bytes lie in memory from PC on. -/
abbrev State.codeIs (s : State) (bs : List Byte) : Prop := codeAt s.mem s.pc.toNat bs = true

/-- The operand byte that names a register (R92). -/
def regByte (r : Reg) : Byte := BitVec.ofNat 8 r.val

/-- `s` with the block halted and the halt record latched, the code given as its number (R32, R281, R283). -/
def State.haltedWith (s : State) (code : BitVec 4) (op : Byte) : State :=
  { s with engine := .halted, haltCode := code, haltPc := s.pc, haltOp := op }

/-- The next step halts with this code. -/
def HaltsWith (s : State) (code : BitVec 4) : Prop :=
  ∃ t, step s = .next t ∧ t.engine = .halted ∧ t.haltCode = code

/-- Where these bytes lie at PC, a running step is the instruction's own effect on the latched state. -/
def StepRuns (s : State) (bs : List Byte) (i : Instr) : Prop :=
  s.runs → s.codeIs bs → step s = exec i s.latched

/-- Where this opcode lies at PC and the instruction's `len` bytes reach past address 255, a running step halts with ERR_MEM_ADDR (3). -/
def StepCutOff (s : State) (op : Byte) (len : Nat) : Prop :=
  s.runs → s.codeIs [op] → 256 < s.pc.toNat + len → step s = .next (s.latched.haltedWith 3 op)

/-- Where this opcode lies at PC, a running step halts with ERR_UNKNOWN_OPCODE (1). -/
def StepUnknown (s : State) (op : Byte) : Prop :=
  s.runs → s.codeIs [op] → step s = .next (s.latched.haltedWith 1 op)

/-! ## The opcode bytes by format (R90, R96, R97), written out -/

/-- Format Z: HLT, RET. -/
def zOpcodes : List Byte := [0x01, 0x11]

/-- Format R: PRN, PUSH, POP, CALL, JMP, JEQ, JNE; NOT with `EXT_ALU`. -/
def rOpcodes (ext : Bool) : List Byte :=
  [0x47, 0x45, 0x46, 0x50, 0x54, 0x55, 0x56] ++ (if ext then [0x69] else [])

/-- Format RR: MUL, ADD, CMP; SUB, DIV, MOD, AND, OR, XOR, SHL, SHR with `EXT_ALU`. -/
def rrOpcodes (ext : Bool) : List Byte :=
  [0xA2, 0xA0, 0xA7] ++ (if ext then [0xA1, 0xA3, 0xA4, 0xA8, 0xAA, 0xAB, 0xAC, 0xAD] else [])

/-- Format RI: LDI. -/
def riOpcodes : List Byte := [0x82]

/-- Every defined opcode (R96, R97, R103). -/
def definedOpcodes (ext : Bool) : List Byte := zOpcodes ++ rOpcodes ext ++ rrOpcodes ext ++ riOpcodes

/-- The opcodes whose instruction may redirect PC: CALL, RET, JMP, JEQ, JNE (R255). -/
def redirectOpcodes : List Byte := [0x50, 0x11, 0x54, 0x55, 0x56]

/-! ## What an instruction may write -/

/-- The registers an instruction may write: its destination, and SP or FL where the spec says it is written implicitly (R20 to R22). -/
def mayWriteReg : Instr → Reg → Prop
  | .hlt, _ => False
  | .ldi ra _, r => regByte r = ra
  | .prn _, _ => False
  | .mul ra _, r => regByte r = ra
  | .add ra _, r => regByte r = ra
  | .push _, r => r = 7
  | .pop ra, r => regByte r = ra ∨ r = 7
  | .call _, r => r = 7
  | .ret, r => r = 7
  | .cmp _ _, r => r = 6
  | .jmp _, _ => False
  | .jeq _, _ => False
  | .jne _, _ => False
  | .sub ra _, r => regByte r = ra
  | .div ra _, r => regByte r = ra
  | .mod ra _, r => regByte r = ra
  | .and ra _, r => regByte r = ra
  | .or ra _, r => regByte r = ra
  | .xor ra _, r => regByte r = ra
  | .not ra, r => regByte r = ra
  | .shl ra _, r => regByte r = ra
  | .shr ra _, r => regByte r = ra

/-- The one cell an instruction stores to, if it stores at all: PUSH and CALL store at the decremented SP (R61, R230, R250). -/
def storeAddress : Instr → State → Option Byte
  | .push _, s => some (s.sp - 1)
  | .call _, s => some (s.sp - 1)
  | .hlt, _ => none
  | .ldi _ _, _ => none
  | .prn _, _ => none
  | .mul _ _, _ => none
  | .add _ _, _ => none
  | .pop _, _ => none
  | .ret, _ => none
  | .cmp _ _, _ => none
  | .jmp _, _ => none
  | .jeq _, _ => none
  | .jne _, _ => none
  | .sub _ _, _ => none
  | .div _ _, _ => none
  | .mod _ _, _ => none
  | .and _ _, _ => none
  | .or _ _, _ => none
  | .xor _ _, _ => none
  | .not _, _ => none
  | .shl _ _, _ => none
  | .shr _ _, _ => none

/-! ## Safe runs -/

/-- The run ended normally (R161, R283). -/
abbrev State.endedNormally (s : State) : Prop := s.engine = .halted ∧ s.haltCode = 0

/-- The run ended with an error (R280, R283). -/
abbrev State.endedInError (s : State) : Prop := s.engine = .halted ∧ s.haltCode ≠ 0

/-- The invariant of the machine: it holds after every reset and every step keeps it. -/
structure State.Inv (s : State) : Prop where
  /-- memory is in canonical form and inside the address space (R60, R65) -/
  memWf : Memory.wf s.mem = true
  /-- PC lies in 0 to 256 (R27, R29) -/
  pcRange : s.pc.toNat ≤ 256
  /-- codes 8 to 15 are never produced, and no step produces code 6 (R283, R289) -/
  codeRange : s.haltCode.toNat ≤ 7 ∧ s.haltCode ≠ 6
  /-- in READY and RUNNING the halt record reads as 0 (R32) -/
  recordClear : s.engine ≠ .halted → s.haltCode = 0 ∧ s.haltPc = 0 ∧ s.haltOp = 0
  /-- in HALTED, halt_pc is PC (R136, R138) -/
  recordPc : s.engine = .halted → s.haltPc = s.pc
  /-- in READY the registers, PC and the output stream hold their reset values (R30) -/
  readyFresh : s.engine = .ready → s.regs = (State.resetWith s.cfg).regs ∧ s.pc = 0 ∧ s.out = []
  /-- out_valid is 1 only in RUNNING, and out_data is then the last byte of the output stream (R33, R163) -/
  outPulse : ∀ v, s.outPort = some v → s.engine = .running ∧ s.out.getLast? = some v
  /-- operand slot 2 is valid only where slot 1 is (R36, R66) -/
  slotOrder : s.latch.b1 = none → s.latch.b2 = none

end Sys2Proof.Machine
end

