-- ==== Sys2Proof/Certificates/Slice0/Obligations.lean ====
section
/-! DEFINITION. Certificates/Slice0/Obligations.lean: the statements for the provers. Each docstring names the rule it formalises. In the
instruction statements, `a` and `b` range over the eight registers and `ra`, `rb`, `imm` over all operand bytes, so that every form of the
instruction is covered: the legal operands complete, an operand over 7 halts with ERR_REG_INDEX (2), and an operand byte past address 255
halts with ERR_MEM_ADDR (3). A next state is written as the old state with the changed fields, so each is a frame as well. A step runs an instruction on `s.latched`:
StepRunsDecodedInstruction says what that state is, and which of its clauses are the model's (log entries 9 and 14).

Where memory's canonical form (`Memory.wf`) is a premise or a conclusion, the list form is the model's (log entry 13). -/

open Sys2Proof Sys2Proof.Machine

/-! ## Halt, load-immediate, print (41_halt_load_print.md) -/

/-- R161: HLT halts with HALT_OK, PC unchanged, at any address; after it, `run` has no effect and no further step runs. -/
def Obligations.HltHaltsNormallyAndForGood : Prop :=
  ∀ (s : State) (p : Inputs),
    exec .hlt s = .next { s with engine := .halted, haltCode := 0, haltPc := s.pc, haltOp := 0x01 } ∧
    StepRuns s [0x01] .hlt ∧
    (p.rst = false → ∀ t, exec .hlt s = .next t → step (t.drive p) = .next (t.drive p))

/-- R162: LDI writes the immediate byte unchanged and advances by 3; R6 and R7 are ordinary destinations. -/
def Obligations.LdiWritesImmediate : Prop :=
  ∀ (s : State) (a : Reg) (ra imm : Byte),
    exec (.ldi (regByte a) imm) s = .next { s with regs := s.regs.set a imm, pc := s.pc + 3 } ∧
    (8 ≤ ra.toNat → exec (.ldi ra imm) s = .next (s.haltedWith 2 0x82)) ∧
    StepRuns s [0x82, ra, imm] (.ldi ra imm) ∧ StepCutOff s 0x82 3

/-- R163: PRN appends the register's byte to the output stream, pulses out_valid with it, and advances by 2. -/
def Obligations.PrnEmitsRegister : Prop :=
  ∀ (s : State) (a : Reg) (ra : Byte),
    exec (.prn (regByte a)) s =
      .next { s with out := s.out ++ [s.regs[a]], outPort := some s.regs[a], pc := s.pc + 2 } ∧
    (8 ≤ ra.toNat → exec (.prn ra) s = .next (s.haltedWith 2 0x47)) ∧
    StepRuns s [0x47, ra] (.prn ra) ∧ StepCutOff s 0x47 2

/-! ## The base ALU instructions (42_alu.md) -/

/-- R185: ADD writes (x[ra] + x[rb]) mod 256 and no flag. -/
def Obligations.AddWrapsModulo256 : Prop :=
  ∀ (s : State) (a b : Reg) (ra rb : Byte),
    exec (.add (regByte a) (regByte b)) s =
      .next { s with
        regs := s.regs.set a (BitVec.ofNat 8 ((s.regs[a].toNat + s.regs[b].toNat) % 256)), pc := s.pc + 3 } ∧
    (8 ≤ ra.toNat ∨ 8 ≤ rb.toNat → exec (.add ra rb) s = .next (s.haltedWith 2 0xA0)) ∧
    StepRuns s [0xA0, ra, rb] (.add ra rb) ∧ StepCutOff s 0xA0 3

/-- R186: MUL writes the low 8 bits of the product and no flag. -/
def Obligations.MulWrapsModulo256 : Prop :=
  ∀ (s : State) (a b : Reg) (ra rb : Byte),
    exec (.mul (regByte a) (regByte b)) s =
      .next { s with
        regs := s.regs.set a (BitVec.ofNat 8 ((s.regs[a].toNat * s.regs[b].toNat) % 256)), pc := s.pc + 3 } ∧
    (8 ≤ ra.toNat ∨ 8 ≤ rb.toNat → exec (.mul ra rb) s = .next (s.haltedWith 2 0xA2)) ∧
    StepRuns s [0xA2, ra, rb] (.mul ra rb) ∧ StepCutOff s 0xA2 3

/-- R190, R191: CMP writes R6 in full with exactly one of E (1), L (4), G (2), comparing the old bytes as unsigned numbers. -/
def Obligations.CmpWritesFlagsByte : Prop :=
  ∀ (s : State) (a b : Reg) (ra rb : Byte),
    exec (.cmp (regByte a) (regByte b)) s =
      .next { s with
        regs := s.regs.set 6
          (if s.regs[a].toNat = s.regs[b].toNat then 0b00000001
            else if s.regs[a].toNat < s.regs[b].toNat then 0b00000100 else 0b00000010),
        pc := s.pc + 3 } ∧
    (8 ≤ ra.toNat ∨ 8 ≤ rb.toNat → exec (.cmp ra rb) s = .next (s.haltedWith 2 0xA7)) ∧
    StepRuns s [0xA7, ra, rb] (.cmp ra rb) ∧ StepCutOff s 0xA7 3

/-! ## The extension ALU instructions (42_alu.md): with `EXT_ALU` they run; without it their opcodes are unknown (R103) -/

/-- R200: SUB writes (x[ra] + 256 - x[rb]) mod 256. -/
def Obligations.SubWrapsModulo256 : Prop :=
  ∀ (s : State) (a b : Reg) (ra rb : Byte),
    (s.cfg.extAlu = true →
      exec (.sub (regByte a) (regByte b)) s =
        .next { s with
          regs := s.regs.set a (BitVec.ofNat 8 ((s.regs[a].toNat + 256 - s.regs[b].toNat) % 256)), pc := s.pc + 3 } ∧
      StepRuns s [0xA1, ra, rb] (.sub ra rb) ∧ StepCutOff s 0xA1 3) ∧
    (8 ≤ ra.toNat ∨ 8 ≤ rb.toNat → exec (.sub ra rb) s = .next (s.haltedWith 2 0xA1)) ∧
    (s.cfg.extAlu = false → StepUnknown s 0xA1)

/-- R201: DIV writes the floor quotient; a divisor of 0 halts with ERR_DIV_ZERO (7) and writes nothing. -/
def Obligations.DivIsFloorOrHaltsOnZero : Prop :=
  ∀ (s : State) (a b : Reg) (ra rb : Byte),
    (s.cfg.extAlu = true →
      (s.regs[b] = 0 → exec (.div (regByte a) (regByte b)) s = .next (s.haltedWith 7 0xA3)) ∧
      (s.regs[b] ≠ 0 → exec (.div (regByte a) (regByte b)) s =
        .next { s with regs := s.regs.set a (BitVec.ofNat 8 (s.regs[a].toNat / s.regs[b].toNat)), pc := s.pc + 3 }) ∧
      StepRuns s [0xA3, ra, rb] (.div ra rb) ∧ StepCutOff s 0xA3 3) ∧
    (8 ≤ ra.toNat ∨ 8 ≤ rb.toNat → exec (.div ra rb) s = .next (s.haltedWith 2 0xA3)) ∧
    (s.cfg.extAlu = false → StepUnknown s 0xA3)

/-- R202: MOD writes the remainder; a divisor of 0 halts with ERR_DIV_ZERO (7) and writes nothing. -/
def Obligations.ModIsRemainderOrHaltsOnZero : Prop :=
  ∀ (s : State) (a b : Reg) (ra rb : Byte),
    (s.cfg.extAlu = true →
      (s.regs[b] = 0 → exec (.mod (regByte a) (regByte b)) s = .next (s.haltedWith 7 0xA4)) ∧
      (s.regs[b] ≠ 0 → exec (.mod (regByte a) (regByte b)) s =
        .next { s with regs := s.regs.set a (BitVec.ofNat 8 (s.regs[a].toNat % s.regs[b].toNat)), pc := s.pc + 3 }) ∧
      StepRuns s [0xA4, ra, rb] (.mod ra rb) ∧ StepCutOff s 0xA4 3) ∧
    (8 ≤ ra.toNat ∨ 8 ≤ rb.toNat → exec (.mod ra rb) s = .next (s.haltedWith 2 0xA4)) ∧
    (s.cfg.extAlu = false → StepUnknown s 0xA4)

/-- R203, R204, R205: AND, OR and XOR write the bitwise result on the 8 bits. -/
def Obligations.AndOrXorAreBitwise : Prop :=
  ∀ (s : State) (a b : Reg) (ra rb : Byte),
    (s.cfg.extAlu = true →
      (exec (.and (regByte a) (regByte b)) s =
        .next { s with regs := s.regs.set a (s.regs[a] &&& s.regs[b]), pc := s.pc + 3 } ∧
       exec (.or (regByte a) (regByte b)) s =
        .next { s with regs := s.regs.set a (s.regs[a] ||| s.regs[b]), pc := s.pc + 3 } ∧
       exec (.xor (regByte a) (regByte b)) s =
        .next { s with regs := s.regs.set a (s.regs[a] ^^^ s.regs[b]), pc := s.pc + 3 }) ∧
      (StepRuns s [0xA8, ra, rb] (.and ra rb) ∧ StepCutOff s 0xA8 3) ∧
      (StepRuns s [0xAA, ra, rb] (.or ra rb) ∧ StepCutOff s 0xAA 3) ∧
      (StepRuns s [0xAB, ra, rb] (.xor ra rb) ∧ StepCutOff s 0xAB 3)) ∧
    (8 ≤ ra.toNat ∨ 8 ≤ rb.toNat →
      exec (.and ra rb) s = .next (s.haltedWith 2 0xA8) ∧
      exec (.or ra rb) s = .next (s.haltedWith 2 0xAA) ∧
      exec (.xor ra rb) s = .next (s.haltedWith 2 0xAB)) ∧
    (s.cfg.extAlu = false → StepUnknown s 0xA8 ∧ StepUnknown s 0xAA ∧ StepUnknown s 0xAB)

/-- R206: NOT writes 255 - x[ra] and advances by 2. -/
def Obligations.NotComplementsRegister : Prop :=
  ∀ (s : State) (a : Reg) (ra : Byte),
    (s.cfg.extAlu = true →
      exec (.not (regByte a)) s =
        .next { s with regs := s.regs.set a (BitVec.ofNat 8 (255 - s.regs[a].toNat)), pc := s.pc + 2 } ∧
      StepRuns s [0x69, ra] (.not ra) ∧ StepCutOff s 0x69 2) ∧
    (8 ≤ ra.toNat → exec (.not ra) s = .next (s.haltedWith 2 0x69)) ∧
    (s.cfg.extAlu = false → StepUnknown s 0x69)

/-- R207: SHL writes (x[ra] * 2^x[rb]) mod 256; the count is the whole byte, and 8 or more gives 0. -/
def Obligations.ShlUsesWholeCount : Prop :=
  ∀ (s : State) (a b : Reg) (ra rb : Byte),
    (s.cfg.extAlu = true →
      exec (.shl (regByte a) (regByte b)) s =
        .next { s with
          regs := s.regs.set a
            (if 8 ≤ s.regs[b].toNat then 0 else BitVec.ofNat 8 ((s.regs[a].toNat * 2 ^ s.regs[b].toNat) % 256)),
          pc := s.pc + 3 } ∧
      StepRuns s [0xAC, ra, rb] (.shl ra rb) ∧ StepCutOff s 0xAC 3) ∧
    (8 ≤ ra.toNat ∨ 8 ≤ rb.toNat → exec (.shl ra rb) s = .next (s.haltedWith 2 0xAC)) ∧
    (s.cfg.extAlu = false → StepUnknown s 0xAC)

/-- R208: SHR writes x[ra] / 2^x[rb], a logical shift; the count is the whole byte, and 8 or more gives 0. -/
def Obligations.ShrUsesWholeCount : Prop :=
  ∀ (s : State) (a b : Reg) (ra rb : Byte),
    (s.cfg.extAlu = true →
      exec (.shr (regByte a) (regByte b)) s =
        .next { s with
          regs := s.regs.set a
            (if 8 ≤ s.regs[b].toNat then 0 else BitVec.ofNat 8 (s.regs[a].toNat / 2 ^ s.regs[b].toNat)),
          pc := s.pc + 3 } ∧
      StepRuns s [0xAD, ra, rb] (.shr ra rb) ∧ StepCutOff s 0xAD 3) ∧
    (8 ≤ ra.toNat ∨ 8 ≤ rb.toNat → exec (.shr ra rb) s = .next (s.haltedWith 2 0xAD)) ∧
    (s.cfg.extAlu = false → StepUnknown s 0xAD)

/-- R184: the integer laws of the ALU, with the columns for a zero operand, for shift counts and for bounds. -/
def Obligations.AluFollowsIntegerLaws : Prop :=
  ∀ (a b : Byte),
    (∃ r, alu true .add a b = .ok r ∧ r.toNat = (a.toNat + b.toNat) % 256 ∧ (b = 0 → r = a) ∧ (a = 0 → r = b)) ∧
    (∃ r, alu true .mul a b = .ok r ∧ r.toNat = (a.toNat * b.toNat) % 256 ∧ (a = 0 ∨ b = 0 → r = 0)) ∧
    (∃ r, alu true .sub a b = .ok r ∧ (r.toNat : Int) = ((a.toNat : Int) - b.toNat) % 256 ∧ (b = 0 → r = a)) ∧
    (b = 0 → alu true .div a b = .error .divZero ∧ alu true .mod a b = .error .divZero) ∧
    (b ≠ 0 → ∃ q m, alu true .div a b = .ok q ∧ alu true .mod a b = .ok m ∧
      a.toNat = q.toNat * b.toNat + m.toNat ∧ m.toNat < b.toNat ∧ q.toNat ≤ a.toNat) ∧
    (∃ r, alu true .and a b = .ok r ∧ ∀ k, r.getLsbD k = (a.getLsbD k && b.getLsbD k)) ∧
    (∃ r, alu true .or a b = .ok r ∧ ∀ k, r.getLsbD k = (a.getLsbD k || b.getLsbD k)) ∧
    (∃ r, alu true .xor a b = .ok r ∧ ∀ k, r.getLsbD k = (a.getLsbD k != b.getLsbD k)) ∧
    (∃ r, alu true .not a b = .ok r ∧ r.toNat = 255 - a.toNat) ∧
    (∃ r, alu true .shl a b = .ok r ∧ r.toNat = (a.toNat * 2 ^ b.toNat) % 256 ∧ (8 ≤ b.toNat → r = 0) ∧ (b = 0 → r = a)) ∧
    (∃ r, alu true .shr a b = .ok r ∧ r.toNat = a.toNat / 2 ^ b.toNat ∧ (8 ≤ b.toNat → r = 0) ∧ (b = 0 → r = a))

/-! ## Stack (43_stack.md) -/

/-- R230: PUSH decrements SP, then stores x[ra], read after the decrement; with SP = 0 it halts with ERR_SP_RANGE (4). -/
def Obligations.PushDecrementsThenStores : Prop :=
  ∀ (s : State) (a : Reg) (ra : Byte),
    (s.regs[7] = 0 → exec (.push (regByte a)) s = .next (s.haltedWith 4 0x45)) ∧
    (s.regs[7] ≠ 0 → exec (.push (regByte a)) s =
      .next { s with
        regs := s.regs.set 7 (s.regs[7] - 1),
        mem := Memory.write s.mem (s.regs[7] - 1) (s.regs.set 7 (s.regs[7] - 1))[a],
        pc := s.pc + 2 }) ∧
    (8 ≤ ra.toNat → exec (.push ra) s = .next (s.haltedWith 2 0x45)) ∧
    StepRuns s [0x45, ra] (.push ra) ∧ StepCutOff s 0x45 2

/-- R231: POP reads the byte at SP into x[ra], then increments SP; for `POP R7` SP is the popped byte. An increment to 256 halts with
ERR_SP_RANGE (4) and discards the register write. -/
def Obligations.PopLoadsThenIncrements : Prop :=
  ∀ (s : State) (a : Reg) (ra : Byte),
    ((s.regs.set a (Memory.read s.mem s.regs[7]))[7] = 255 → exec (.pop (regByte a)) s = .next (s.haltedWith 4 0x46)) ∧
    ((s.regs.set a (Memory.read s.mem s.regs[7]))[7] ≠ 255 → exec (.pop (regByte a)) s =
      .next { s with
        regs := (s.regs.set a (Memory.read s.mem s.regs[7])).set 7 ((s.regs.set a (Memory.read s.mem s.regs[7]))[7] + 1),
        pc := s.pc + 2 }) ∧
    (8 ≤ ra.toNat → exec (.pop ra) s = .next (s.haltedWith 2 0x46)) ∧
    StepRuns s [0x46, ra] (.pop ra) ∧ StepCutOff s 0x46 2

/-- R233: PUSH Rr then POP Rr restores x[r] and SP for every r, R7 too; the cell keeps the pushed value and PC advances by 4. -/
def Obligations.PushThenPopRestores : Prop :=
  ∀ (s : State) (r : Reg), Memory.wf s.mem = true → s.regs[7] ≠ 0 →
    ∃ t u, exec (.push (regByte r)) s = .next t ∧ exec (.pop (regByte r)) t = .next u ∧
      u.regs = s.regs ∧ u.pc = s.pc + 4 ∧
      u.memRead (s.regs[7] - 1) = (if r = 7 then s.regs[7] - 1 else s.regs[r])

/-! ## Control transfer (44_control_transfer.md) -/

/-- R250: CALL stores pc + 2 at the decremented SP and jumps to x[ra], read after the push. A return address over 255 halts with
ERR_RET_ADDR (5), reported before SP = 0 with ERR_SP_RANGE (4). -/
def Obligations.CallPushesReturnAddress : Prop :=
  ∀ (s : State) (a : Reg) (ra : Byte),
    (255 < s.pc.toNat + 2 → exec (.call (regByte a)) s = .next (s.haltedWith 5 0x50)) ∧
    (s.pc.toNat + 2 ≤ 255 → s.regs[7] = 0 → exec (.call (regByte a)) s = .next (s.haltedWith 4 0x50)) ∧
    (s.pc.toNat + 2 ≤ 255 → s.regs[7] ≠ 0 → exec (.call (regByte a)) s =
      .next { s with
        regs := s.regs.set 7 (s.regs[7] - 1),
        mem := Memory.write s.mem (s.regs[7] - 1) (BitVec.ofNat 8 (s.pc.toNat + 2)),
        pc := (s.regs.set 7 (s.regs[7] - 1))[a].setWidth 9 }) ∧
    (8 ≤ ra.toNat → exec (.call ra) s = .next (s.haltedWith 2 0x50)) ∧
    StepRuns s [0x50, ra] (.call ra) ∧ StepCutOff s 0x50 2

/-- R251: RET jumps to the byte at SP and increments SP once; with SP = 255 it halts with ERR_SP_RANGE (4). It may sit at address 255. -/
def Obligations.RetPopsTarget : Prop :=
  ∀ (s : State),
    (s.regs[7] = 255 → exec .ret s = .next (s.haltedWith 4 0x11)) ∧
    (s.regs[7] ≠ 255 → exec .ret s =
      .next { s with regs := s.regs.set 7 (s.regs[7] + 1), pc := (Memory.read s.mem s.regs[7]).setWidth 9 }) ∧
    StepRuns s [0x11] .ret

/-- R252: a CALL at p ≤ 253 with SP ≥ 1, then any subroutine that leaves SP and the cell at SP as the CALL left them, then RET: PC is p + 2
and SP is what it was. -/
def Obligations.RetUndoesCall : Prop :=
  ∀ (s : State) (r : Reg), Memory.wf s.mem = true → s.pc.toNat ≤ 253 → s.regs[7] ≠ 0 →
    ∃ t, exec (.call (regByte r)) s = .next t ∧
      ∀ t' : State, t'.regs[7] = s.regs[7] - 1 → t'.memRead (s.regs[7] - 1) = t.memRead (s.regs[7] - 1) →
        ∃ u, exec .ret t' = .next u ∧ u.pc.toNat = s.pc.toNat + 2 ∧ u.regs[7] = s.regs[7]

/-- R261: JMP sets PC to x[ra] and changes nothing else. -/
def Obligations.JmpSetsPc : Prop :=
  ∀ (s : State) (a : Reg) (ra : Byte),
    exec (.jmp (regByte a)) s = .next { s with pc := s.regs[a].setWidth 9 } ∧
    (8 ≤ ra.toNat → exec (.jmp ra) s = .next (s.haltedWith 2 0x54)) ∧
    StepRuns s [0x54, ra] (.jmp ra) ∧ StepCutOff s 0x54 2

/-- R262: JEQ jumps when bit 0 of R6 is 1 and falls through by 2 otherwise; its operand is checked either way. -/
def Obligations.JeqTestsEqualBit : Prop :=
  ∀ (s : State) (a : Reg) (ra : Byte),
    exec (.jeq (regByte a)) s =
      .next { s with pc := if s.regs[6].getLsbD 0 = true then s.regs[a].setWidth 9 else s.pc + 2 } ∧
    (8 ≤ ra.toNat → exec (.jeq ra) s = .next (s.haltedWith 2 0x55)) ∧
    StepRuns s [0x55, ra] (.jeq ra) ∧ StepCutOff s 0x55 2

/-- R263: JNE jumps when bit 0 of R6 is 0 and falls through by 2 otherwise, so exactly one of JEQ and JNE is taken. -/
def Obligations.JneTestsEqualBitClear : Prop :=
  ∀ (s : State) (a : Reg) (ra : Byte),
    exec (.jne (regByte a)) s =
      .next { s with pc := if s.regs[6].getLsbD 0 = false then s.regs[a].setWidth 9 else s.pc + 2 } ∧
    (8 ≤ ra.toNat → exec (.jne ra) s = .next (s.haltedWith 2 0x56)) ∧
    StepRuns s [0x56, ra] (.jne ra) ∧ StepCutOff s 0x56 2 ∧
    ((exec (.jeq (regByte a)) s = .next { s with pc := s.regs[a].setWidth 9 } ∧
        exec (.jne (regByte a)) s = .next { s with pc := s.pc + 2 }) ∨
      (exec (.jeq (regByte a)) s = .next { s with pc := s.pc + 2 } ∧
        exec (.jne (regByte a)) s = .next { s with pc := s.regs[a].setWidth 9 }))

/-- R261 (corner case), R343: a JMP to its own address never halts, however many steps are taken. -/
def Obligations.SelfJumpNeverHalts : Prop :=
  ∀ (s : State) (r : Reg) (n : Nat), s.runs → s.codeIs [0x54, regByte r] → s.regs[r].setWidth 9 = s.pc →
    ∃ t, Host.Core.run core n s = .next t ∧ t.engine = .running ∧ t.pc = s.pc

/-! ## Encoding (30_encoding.md) -/

/-- Words written out from the encodings of R90, R96 and R97, one of each family, decode to the instruction they stand for. -/
def Obligations.WrittenWordsDecode : Prop :=
  decodeBytes false [0b00000001] = .ok .hlt ∧
  decodeBytes false [0b10000010, 0b00000000, 0b00001000] = .ok (.ldi 0 8) ∧
  decodeBytes false [0b10100000, 0b00000001, 0b00000010] = .ok (.add 1 2) ∧
  decodeBytes false [0b01000101, 0b00000011] = .ok (.push 3) ∧
  decodeBytes false [0b01010000, 0b00000100] = .ok (.call 4) ∧
  decodeBytes true [0b10101100, 0b00000101, 0b00000110] = .ok (.shl 5 6) ∧
  decodeBytes true [0b01101001, 0b00000111] = .ok (.not 7)

/-- R90, R96, R97: decoding the bytes of an instruction, whatever bytes follow them, gives the instruction back, with every operand byte
unchanged; the extension instructions under `EXT_ALU` only. -/
def Obligations.DecodeOfEncodeIsIdentity : Prop :=
  ∀ (i : Instr) (ext : Bool) (rest : List Byte), (i.isExt = true → ext = true) →
    decodeBytes ext (encode i ++ rest) = .ok i

/-- R99: each instruction has one encoding per operand choice: bytes that decode to it begin with its encoding, whatever the ignored slots
hold (R94), and the decoder gives an extension instruction only under `EXT_ALU`. -/
def Obligations.EncodingIsUnique : Prop :=
  ∀ (i : Instr) (ext : Bool) (bs : List Byte), decodeBytes ext bs = .ok i →
    encode i <+: bs ∧ (i.isExt = true → ext = true) ∧
      ∀ bs', decodeBytes ext bs' = .ok i → bs'.take (encode i).length = bs.take (encode i).length

/-! ## The step (40_execute_cycle.md) -/

/-- From R135 and R141: where the bytes at PC are those of a well-formed instruction that the parameters enable, a running step is that
instruction's meaning on the state with the out_valid pulse ended and the opcode and operand slots latched, and nothing else changed.
Two clauses are the model's: that this step ends the pulse (`outPort := none`, log entry 14) and that a slot past address 255 holds no
value (`none`, log entry 9). -/
def Obligations.StepRunsDecodedInstruction : Prop :=
  ∀ (s : State) (i : Instr), s.runs → s.codeIs (encode i) → i.wellFormed = true → (i.isExt = true → s.cfg.extAlu = true) →
    step s = exec i s.latched ∧
    s.latched = { s with
      outPort := none,
      latch :=
        { ir := i.opcode,
          b1 := if s.pc.toNat + 1 ≤ 255 then some (s.byteAt 1) else none,
          b2 := if s.pc.toNat + 2 ≤ 255 then some (s.byteAt 2) else none } }

/-- R136: PC at the end of a step: unchanged where it halts, and halt_pc is it; else, by instruction: x[ra] for JMP and CALL (read after the push) and for a taken JEQ or JNE;
the popped byte for RET; else PC plus the instruction's own length. -/
def Obligations.PcAtEndOfInstruction : Prop :=
  (∀ s t : State, s.runs → step s = .next t → t.engine = .halted → t.pc = s.pc ∧ t.haltPc = s.pc) ∧
  ∀ (i : Instr) (s t : State), s.engine = .running → exec i s = .next t →
    (t.engine = .halted → t.pc = s.pc ∧ t.haltPc = s.pc) ∧
    (t.engine ≠ .halted →
      match i with
      | .hlt => False
      | .jmp ra | .call ra => ∃ r : Reg, regByte r = ra ∧ t.pc = t.regs[r].setWidth 9
      | .ret => t.pc = (s.memRead s.regs[7]).setWidth 9
      | .jeq ra => ∃ r : Reg, regByte r = ra ∧
          t.pc = if s.regs[6].getLsbD 0 = true then s.regs[r].setWidth 9 else s.pc + 2
      | .jne ra => ∃ r : Reg, regByte r = ra ∧
          t.pc = if s.regs[6].getLsbD 0 = false then s.regs[r].setWidth 9 else s.pc + 2
      | .prn _ | .push _ | .pop _ | .not _ => t.pc = s.pc + 2
      | .ldi _ _ | .add _ _ | .mul _ _ | .cmp _ _ | .sub _ _ | .div _ _ | .mod _ _ | .and _ _ | .or _ _ | .xor _ _
      | .shl _ _ | .shr _ _ => t.pc = s.pc + 3)

/-- From R137: an instruction that completes without redirecting PC (no control transfer, or a JEQ or JNE not taken) leaves PC + length, computed
exactly and at most 256; when it is 256, the next step halts with ERR_MEM_ADDR (3), halt_pc 256 and halt_op 0. That this step also ends the out_valid pulse
(`outPort := none`) is the model's (log entry 14). -/
def Obligations.PcAdvanceNeverWraps : Prop :=
  ∀ (s t : State), s.runs → step s = .next t → t.engine = .running →
    (s.byteAt 0 ∉ redirectOpcodes →
      t.pc.toNat = s.pc.toNat + (if s.byteAt 0 ∈ rOpcodes s.cfg.extAlu then 2 else 3) ∧ t.pc.toNat ≤ 256) ∧
    ((s.byteAt 0 = 0x55 ∧ s.regs[6].getLsbD 0 = false) ∨ (s.byteAt 0 = 0x56 ∧ s.regs[6].getLsbD 0 = true) →
      t.pc.toNat = s.pc.toNat + 2 ∧ t.pc.toNat ≤ 256) ∧
    (t.pc.toNat = 256 →
      step t = .next { t with engine := .halted, haltCode := 3, haltPc := 256, haltOp := 0, outPort := none })

/-! ## Halting (60_exceptions.md): exactly when each code is raised -/

/-- R103, R284: the decoder gives no instruction for exactly the undefined opcode bytes (243 of them, 234 with `EXT_ALU`, 0x00 among them),
and a running step halts with ERR_UNKNOWN_OPCODE (1) exactly when the byte at PC is one, recording PC and the byte. -/
def Obligations.UnknownOpcodeHalts : Prop :=
  (∀ (ext : Bool) (op : Byte) (b1 b2 : Option Byte),
    decode ext op b1 b2 = .error (.unknownOpcode op) ↔ op ∉ definedOpcodes ext) ∧
  (∀ ext : Bool, (List.range 256).countP (fun n => decide (BitVec.ofNat 8 n ∉ definedOpcodes ext)) = if ext then 234 else 243) ∧
  (∀ ext : Bool, (0x00 : Byte) ∉ definedOpcodes ext) ∧
  (∀ s : State, s.runs →
    (HaltsWith s 1 ↔ s.pc.toNat ≤ 255 ∧ s.byteAt 0 ∉ definedOpcodes s.cfg.extAlu) ∧
    (s.pc.toNat ≤ 255 → s.byteAt 0 ∉ definedOpcodes s.cfg.extAlu → step s = .next (s.latched.haltedWith 1 (s.byteAt 0))))

/-- R285: ERR_REG_INDEX (2) is raised exactly when the declared operand bytes are all in memory and a register-index operand byte is over 7.
Nothing is written: the offending byte still stands in memory after halt_pc. -/
def Obligations.RegisterIndexHalts : Prop :=
  ∀ s : State, s.runs →
    (HaltsWith s 2 ↔ s.pc.toNat ≤ 255 ∧
      ((s.byteAt 0 ∈ rOpcodes s.cfg.extAlu ∧ s.pc.toNat + 1 ≤ 255 ∧ 7 < (s.byteAt 1).toNat) ∨
       (s.byteAt 0 ∈ rrOpcodes s.cfg.extAlu ∧ s.pc.toNat + 2 ≤ 255 ∧ (7 < (s.byteAt 1).toNat ∨ 7 < (s.byteAt 2).toNat)) ∨
       (s.byteAt 0 ∈ riOpcodes ∧ s.pc.toNat + 2 ≤ 255 ∧ 7 < (s.byteAt 1).toNat))) ∧
    (∀ t, step s = .next t → t.haltCode = 2 → t.engine = .halted → t.haltPc = s.pc ∧ t.haltOp = s.byteAt 0 ∧ t.mem = s.mem)

/-- R286: ERR_MEM_ADDR (3) is raised exactly when the fetch address, or the address of an operand byte the opcode declares, is over 255. -/
def Obligations.MemoryAddressHalts : Prop :=
  ∀ s : State, s.runs →
    (HaltsWith s 3 ↔ 255 < s.pc.toNat ∨
      (s.byteAt 0 ∈ rOpcodes s.cfg.extAlu ∧ 255 < s.pc.toNat + 1) ∨
      (s.byteAt 0 ∈ rrOpcodes s.cfg.extAlu ∧ 255 < s.pc.toNat + 2) ∨
      (s.byteAt 0 ∈ riOpcodes ∧ 255 < s.pc.toNat + 2))

/-- R287: ERR_SP_RANGE (4) is raised exactly when PUSH or CALL finds SP = 0, or POP or RET would increment SP from 255, once the earlier
checks have passed. -/
def Obligations.StackPointerRangeHalts : Prop :=
  ∀ s : State, s.runs →
    (HaltsWith s 4 ↔ s.pc.toNat ≤ 255 ∧
      ((s.byteAt 0 = 0x45 ∧ s.pc.toNat + 1 ≤ 255 ∧ (s.byteAt 1).toNat ≤ 7 ∧ s.regs[7] = 0) ∨
       (s.byteAt 0 = 0x50 ∧ s.pc.toNat + 2 ≤ 255 ∧ (s.byteAt 1).toNat ≤ 7 ∧ s.regs[7] = 0) ∨
       (s.byteAt 0 = 0x46 ∧ s.pc.toNat + 1 ≤ 255 ∧ (s.byteAt 1).toNat ≤ 7 ∧
          (if (s.byteAt 1).toNat = 7 then s.memRead s.regs[7] else s.regs[7]) = 255) ∨
       (s.byteAt 0 = 0x11 ∧ s.regs[7] = 255)))

/-- R288: ERR_RET_ADDR (5) is raised exactly by a CALL at 254 whose operand names a register. -/
def Obligations.ReturnAddressHalts : Prop :=
  ∀ s : State, s.runs →
    (HaltsWith s 5 ↔ s.pc.toNat = 254 ∧ s.byteAt 0 = 0x50 ∧ (s.byteAt 1).toNat ≤ 7)

/-- R182, R289: an extension instruction given to the ALU without `EXT_ALU` halts with ERR_ALU_UNSUPPORTED (6) and writes nothing, and no
step reaches it. -/
def Obligations.UnsupportedTagUnreachable : Prop :=
  (∀ (i : Instr) (s : State), i.isExt = true → i.wellFormed = true → s.cfg.extAlu = false →
    exec i s = .next (s.haltedWith 6 i.opcode)) ∧
  (∀ s : State, s.runs → ¬ HaltsWith s 6)

/-- R290: ERR_DIV_ZERO (7) is raised exactly by DIV or MOD under `EXT_ALU` when x[rb] = 0. -/
def Obligations.DivideByZeroHalts : Prop :=
  ∀ s : State, s.runs →
    (HaltsWith s 7 ↔ s.cfg.extAlu = true ∧ s.pc.toNat + 2 ≤ 255 ∧ (s.byteAt 0 = 0xA3 ∨ s.byteAt 0 = 0xA4) ∧
      (s.byteAt 1).toNat ≤ 7 ∧ ∃ r : Reg, s.byteAt 2 = regByte r ∧ s.regs[r] = 0)

/-- From R138 and R281: whatever made a running step halt, the state is the old one with HALTED and the halt record latched (halt_pc the PC, halt_op
the opcode byte, or 0 for a fetch fault): registers, memory, PC and the output stream are as before the step. The latch, which R36 does not count as
architectural, is as the fetch leaves it, and that the step ends the out_valid pulse (`outPort := none`) is the model's (log entry 14). -/
def Obligations.HaltEntryIsPrecise : Prop :=
  ∀ (s t : State), s.runs → step s = .next t → t.engine = .halted →
    t.haltCode.toNat ≤ 7 ∧
    t = { s with
      engine := .halted,
      haltCode := t.haltCode,
      haltPc := s.pc,
      haltOp := if s.pc.toNat ≤ 255 then s.byteAt 0 else 0,
      outPort := none,
      latch := s.latched.latch }

/-- R31: the engine state changes only READY to RUNNING on `run`, and RUNNING to HALTED with a code of R283; `rst` alone makes it READY. -/
def Obligations.EngineTransitions : Prop :=
  ∀ (s t : State), step s = .next t →
    (s.inputs.rst = true → t.engine = .ready) ∧
    (s.inputs.rst = false →
      (s.engine = .ready → t.engine = if s.inputs.run then .running else .ready) ∧
      (s.engine = .running → t.engine = .running ∨ (t.engine = .halted ∧ t.haltCode.toNat ≤ 7)) ∧
      (s.engine = .halted → t = s))

/-! ## Frames -/

/-- No instruction changes a register other than its destination, SP for the stack instructions, CALL and RET, and R6 for CMP; where it halts
it changes none (R20 to R22, R26, R138). -/
def Obligations.RegisterFrame : Prop :=
  (∀ (i : Instr) (s t : State) (r : Reg), exec i s = .next t → ¬ mayWriteReg i r → t.regs[r] = s.regs[r]) ∧
  (∀ (i : Instr) (s t : State), s.engine ≠ .halted → exec i s = .next t → t.engine = .halted → t.regs = s.regs)

/-- No instruction changes a byte of memory other than the one PUSH and CALL store at the decremented SP (R61). -/
def Obligations.MemoryFrame : Prop :=
  ∀ (i : Instr) (s t : State) (a : Byte), exec i s = .next t → storeAddress i s ≠ some a → t.memRead a = s.memRead a

/-- No instruction changes the latch, the input ports or the parameters; one that does not halt leaves the engine state and the halt record;
one that is no PRN leaves the output stream and the output port. -/
def Obligations.OtherStateFrame : Prop :=
  ∀ (i : Instr) (s t : State), exec i s = .next t →
    t.latch = s.latch ∧ t.inputs = s.inputs ∧ t.cfg = s.cfg ∧
    ((∃ c, t = s.enterHalted c i.opcode) ∨
      (t.engine = s.engine ∧ t.haltCode = s.haltCode ∧ t.haltPc = s.haltPc ∧ t.haltOp = s.haltOp)) ∧
    ((∀ ra, i ≠ .prn ra) → t.out = s.out ∧ t.outPort = s.outPort)

/-! ## Memory and output, over a whole step -/

/-- From R63: a write sets its cell to the byte and changes no other cell. That memory is a list whose canonical form is a premise and is
kept is the model's (log entry 13). -/
def Obligations.MemoryWriteSetsOneCell : Prop :=
  ∀ (s : State) (a b v : Byte), Memory.wf s.mem = true →
    (s.memWrite a v).memRead b = (if b = a then v else s.memRead b) ∧ Memory.wf (s.memWrite a v).mem = true

/-- R61, R75: a step changes a byte of memory only by reset, by the host's load in READY at its load address, or by a PUSH or CALL at the
decremented SP. -/
def Obligations.MemoryChangesOnlyByStores : Prop :=
  ∀ (s t : State) (a : Byte), step s = .next t → t.memRead a ≠ s.memRead a →
    s.inputs.rst = true ∨
    (s.engine = .ready ∧ s.inputs.loadWe = true ∧ a = s.inputs.loadAddr) ∨
    (s.engine = .running ∧ (s.byteAt 0 = 0x45 ∨ s.byteAt 0 = 0x50) ∧ a = s.regs[7] - 1)

/-- From R75: the byte that PUSH or CALL, the two instructions that store, writes is what the next fetch reads where the next instruction
covers the cell, be it the opcode (k = 0) or an operand slot. PUSH goes on behind itself; CALL goes to its target, and `CALL R7` to the
very cell it stores. The canonical premise is the model's (log entry 13). -/
def Obligations.StoreSeenByNextFetch : Prop :=
  ∀ (s : State) (r : Reg), Memory.wf s.mem = true → s.regs[7] ≠ 0 →
    (∃ t, exec (.push (regByte r)) s = .next t ∧ t.pc = s.pc + 2 ∧
      ∀ k : Nat, t.pc.toNat + k = (s.regs[7] - 1).toNat → t.slot k = some t.regs[r]) ∧
    (s.pc.toNat + 2 ≤ 255 →
      ∃ t, exec (.call (regByte r)) s = .next t ∧ t.pc = t.regs[r].setWidth 9 ∧
        (∀ k : Nat, t.pc.toNat + k = (s.regs[7] - 1).toNat → t.slot k = some (BitVec.ofNat 8 (s.pc.toNat + 2))) ∧
        (r = 7 → t.slot 0 = some (BitVec.ofNat 8 (s.pc.toNat + 2))))

/-- From R33, R40 and R163: a running step appends to the output stream exactly when it is a PRN that completes, one byte, which is what
out_valid pulses with; otherwise out_valid is 0 after it, which is the model's reading of "pulses for one step" (log entry 14). A step outside RUNNING leaves the stream alone, but for a reset, which empties it. -/
def Obligations.OutputOnlyByPrn : Prop :=
  (∀ (s t : State), s.runs → step s = .next t →
    t.out = s.out ++ t.outPort.toList ∧
    (∀ v, t.outPort = some v ↔ s.pc.toNat + 1 ≤ 255 ∧ s.byteAt 0 = 0x47 ∧ ∃ r : Reg, s.byteAt 1 = regByte r ∧ s.regs[r] = v)) ∧
  (∀ (s t : State), s.engine ≠ .running → s.inputs.rst = false → step s = .next t → t.out = s.out ∧ t.outPort = s.outPort) ∧
  (∀ (s t : State), s.inputs.rst = true → step s = .next t → t.out = [] ∧ t.outPort = none)

/-- R36: the latch is not visible to a program: states that differ in it alone step to states that differ in it alone. -/
def Obligations.LatchIsInvisible : Prop :=
  ∀ (s t : State) (l : Latch), step s = .next t → ∃ l', step { s with latch := l } = .next { t with latch := l' }

/-- R41, R293: outside READY the input ports other than `rst` have no effect on a step (`dbg_addr` still selects what dbg_data shows). -/
def Obligations.HostPortsIgnoredOutsideReady : Prop :=
  ∀ (s t : State) (p : Inputs), s.engine ≠ .ready → s.inputs.rst = false → p.rst = false → step s = .next t →
    step (s.drive p) = .next (t.drive p)

/-! ## Reset, load and start (70_reset_and_hazards.md) -/

/-- From R320: `rst` puts the block in the reset state of its parameters from any state (the latch, which R321 leaves open, aside), and it is
the only way out of HALTED; the power-on state is such a state. That every reset loads the same REG_RESET, and leaves the parameters and the
ports, which the host drives, is the model's (log entries 5 and 8). -/
def Obligations.ResetMakesFreshEngine : Prop :=
  (∀ s : State, s.inputs.rst = true →
    ∃ l, step s = .next { State.resetWith s.cfg with inputs := s.inputs, latch := l }) ∧
  (∀ s t : State, s.engine = .halted → step s = .next t → t.engine ≠ .halted → s.inputs.rst = true) ∧
  ∃ c, State.reset = State.resetWith c

/-- R321: the reset values, for every value of the parameters. -/
def Obligations.ResetValues : Prop :=
  ∀ c : Config,
    (∀ a, (State.resetWith c).memRead a = 0) ∧
    (∀ k : Fin 6, (State.resetWith c).regs[k.val] = c.regReset[k.val]) ∧
    (State.resetWith c).regs[6] = 0 ∧ (State.resetWith c).regs[7] = 0xF4 ∧
    (State.resetWith c).pc = 0 ∧ (State.resetWith c).engine = .ready ∧
    (State.resetWith c).haltCode = 0 ∧ (State.resetWith c).haltPc = 0 ∧ (State.resetWith c).haltOp = 0 ∧
    (State.resetWith c).out = [] ∧ (State.resetWith c).outPort = none

/-- R321's own inference from its values: with FL as at reset a JEQ is not taken, and a JNE is. -/
def Obligations.BranchesAfterReset : Prop :=
  ∀ (c : Config) (r : Reg),
    exec (.jeq (regByte r)) (State.resetWith c) = .next { State.resetWith c with pc := 2 } ∧
    exec (.jne (regByte r)) (State.resetWith c) =
      .next { State.resetWith c with pc := (State.resetWith c).regs[r].setWidth 9 }

/-- From R322: loading an image of at most 256 bytes in READY puts byte i at address i, leaves every later cell 0, and leaves the block READY
at PC 0; an image longer than 256 bytes is refused, in every state, before any byte is written. -/
def Obligations.LoadPlacesImage : Prop :=
  (∀ (c : Config) (img : List Byte), img.length ≤ 256 →
    ∃ t, loadImage 0 img (State.resetWith c) = .next t ∧ t.engine = .ready ∧ t.pc = 0 ∧
      t.regs = (State.resetWith c).regs ∧ ∀ a : Byte, t.memRead a = img.getD a.toNat 0) ∧
  (∀ (s : State) (img : List Byte), 256 < img.length → loadImage 0 img s = .refused .imageTooLong)

/-- From R322, R324 and R135 (how a program comes to run: log entries 7 and 8): from any reset state, loading an image that begins with the encoding of a well-formed, enabled instruction and asserting
`run` puts the block in RUNNING at PC 0 with the registers as at reset, and the next step is that instruction's meaning. -/
def Obligations.LoadedInstructionRunsFirst : Prop :=
  ∀ (c : Config) (i : Instr) (rest : List Byte),
    i.wellFormed = true → (i.isExt = true → c.extAlu = true) → (encode i ++ rest).length ≤ 256 →
    ∃ t u, loadImage 0 (encode i ++ rest) (State.resetWith c) = .next t ∧ step (t.drive .start) = .next u ∧
      u.runs ∧ u.pc = 0 ∧ u.regs = (State.resetWith c).regs ∧ step u = exec i u.latched

/-- R323, R324: `run` in READY starts the block, and with an empty image the first step fetches 0x00 at address 0 and halts with
ERR_UNKNOWN_OPCODE (1), halt_pc 0 and halt_op 0, the registers, memory, PC and the output as at reset. -/
def Obligations.EmptyImageHalts : Prop :=
  ∀ c : Config, ∃ t u, step ((State.resetWith c).drive .start) = .next t ∧ t.engine = .running ∧ t.pc = 0 ∧
    step t = .next u ∧ u.engine = .halted ∧ u.haltCode = 1 ∧ u.haltPc = 0 ∧ u.haltOp = 0 ∧
    u.regs = (State.resetWith c).regs ∧ u.mem = (State.resetWith c).mem ∧ u.pc = 0 ∧ u.out = [] ∧ u.outPort = none

/-! ## The invariant -/

/-- R29: every value PC takes lies in 0 to 256: a step keeps it there. -/
def Obligations.PcStaysInRange : Prop :=
  ∀ (s t : State), s.pc.toNat ≤ 256 → step s = .next t → t.pc.toNat ≤ 256

/-- The invariant of Safety.lean holds after reset, whatever the parameters. Its clauses on memory's form and on the latch are the model's (log
entries 13, 3 and 9). -/
def Obligations.InvariantHoldsAtReset : Prop :=
  ∀ c : Config, (State.resetWith c).Inv

/-- Every step keeps the invariant, from every state that meets it: memory stays canonical, PC in 0 to 256, the halt record clear until HALTED
and then at PC, no code over 7 or equal to 6, READY state fresh, out_valid only in RUNNING with the last byte of the stream. The clauses on memory's form (log entry 13), on out_valid (log entry 14) and on
the latch's slots (log entry 9) are the model's. -/
def Obligations.StepKeepsInvariant : Prop :=
  ∀ (s t : State), s.Inv → step s = .next t → t.Inv

/-! ## The output ports (10_state.md R30, R40) -/

/-- From R30, R32, R40, R41 and R299: what the output ports show in each engine state. status_state is 0, 1 or 2, never 3; the halt record is on
its ports, and reads 0 where the invariant holds and the block has not halted; out_valid is 1 in the state after a PRN, with its byte as
out_data; memory at `dbg_addr`, x[0..7] and PC are readable in READY and HALTED. That the inspection ports show no value in RUNNING, and
out_data none without out_valid, is the model's (log entries 15 and 9). -/
def Obligations.OutputPortsByEngineState : Prop :=
  ∀ (s : State) (p : Inputs) (r : Reg),
    (s.outputs.statusState = 0 ↔ s.engine = .ready) ∧ (s.outputs.statusState = 1 ↔ s.engine = .running) ∧
    (s.outputs.statusState = 2 ↔ s.engine = .halted) ∧ s.outputs.statusState ≠ 3 ∧
    (s.outputs.haltCode = s.haltCode ∧ s.outputs.haltPc = s.haltPc ∧ s.outputs.haltOp = s.haltOp) ∧
    (s.Inv → s.outputs.statusState ≠ 2 → s.outputs.haltCode = 0 ∧ s.outputs.haltPc = 0 ∧ s.outputs.haltOp = 0) ∧
    (∃ t, exec (.prn (regByte r)) s = .next t ∧ t.outputs.outValid = true ∧ t.outputs.outData = some s.regs[r]) ∧
    (s.outPort = none → s.outputs.outValid = false ∧ s.outputs.outData = none) ∧
    (s.engine = .ready ∨ s.engine = .halted →
      (s.drive p).outputs.dbgData = some (s.memRead p.dbgAddr) ∧ s.outputs.dbgRegs = some s.regs ∧ s.outputs.dbgPc = some s.pc) ∧
    (s.engine = .running → s.outputs.dbgData = none ∧ s.outputs.dbgRegs = none ∧ s.outputs.dbgPc = none)
end

