-- ==== Sys2Proof/Laws/State.lean ====
section
/-! SUPPORT. Laws/State.lean: one lemma per field per update of State, so that no proof unfolds a record update. -/

namespace Sys2Proof.Machine

/-! ## setReg -/

@[simp] theorem State.setReg_pc (s : State) (r : Reg) (v : Byte) : (s.setReg r v).pc = s.pc := rfl
@[simp] theorem State.setReg_mem (s : State) (r : Reg) (v : Byte) : (s.setReg r v).mem = s.mem := rfl
@[simp] theorem State.setReg_engine (s : State) (r : Reg) (v : Byte) : (s.setReg r v).engine = s.engine := rfl
@[simp] theorem State.setReg_haltCode (s : State) (r : Reg) (v : Byte) : (s.setReg r v).haltCode = s.haltCode := rfl
@[simp] theorem State.setReg_haltPc (s : State) (r : Reg) (v : Byte) : (s.setReg r v).haltPc = s.haltPc := rfl
@[simp] theorem State.setReg_haltOp (s : State) (r : Reg) (v : Byte) : (s.setReg r v).haltOp = s.haltOp := rfl
@[simp] theorem State.setReg_out (s : State) (r : Reg) (v : Byte) : (s.setReg r v).out = s.out := rfl
@[simp] theorem State.setReg_outPort (s : State) (r : Reg) (v : Byte) : (s.setReg r v).outPort = s.outPort := rfl
@[simp] theorem State.setReg_latch (s : State) (r : Reg) (v : Byte) : (s.setReg r v).latch = s.latch := rfl
@[simp] theorem State.setReg_inputs (s : State) (r : Reg) (v : Byte) : (s.setReg r v).inputs = s.inputs := rfl
@[simp] theorem State.setReg_cfg (s : State) (r : Reg) (v : Byte) : (s.setReg r v).cfg = s.cfg := rfl
@[simp] theorem State.setReg_regs (s : State) (r : Reg) (v : Byte) : (s.setReg r v).regs = s.regs.set r v := rfl
@[simp] theorem State.setSp_eq (s : State) (v : Byte) : s.setSp v = s.setReg 7 v := rfl
@[simp] theorem State.setFl_eq (s : State) (v : Byte) : s.setFl v = s.setReg 6 v := rfl
@[simp] theorem State.sp_eq (s : State) : s.sp = s.reg 7 := rfl
@[simp] theorem State.fl_eq (s : State) : s.fl = s.reg 6 := rfl

/-! ## memWrite -/

@[simp] theorem State.memWrite_regs (s : State) (a v : Byte) : (s.memWrite a v).regs = s.regs := rfl
@[simp] theorem State.memWrite_pc (s : State) (a v : Byte) : (s.memWrite a v).pc = s.pc := rfl
@[simp] theorem State.memWrite_engine (s : State) (a v : Byte) : (s.memWrite a v).engine = s.engine := rfl
@[simp] theorem State.memWrite_haltCode (s : State) (a v : Byte) : (s.memWrite a v).haltCode = s.haltCode := rfl
@[simp] theorem State.memWrite_haltPc (s : State) (a v : Byte) : (s.memWrite a v).haltPc = s.haltPc := rfl
@[simp] theorem State.memWrite_haltOp (s : State) (a v : Byte) : (s.memWrite a v).haltOp = s.haltOp := rfl
@[simp] theorem State.memWrite_out (s : State) (a v : Byte) : (s.memWrite a v).out = s.out := rfl
@[simp] theorem State.memWrite_outPort (s : State) (a v : Byte) : (s.memWrite a v).outPort = s.outPort := rfl
@[simp] theorem State.memWrite_latch (s : State) (a v : Byte) : (s.memWrite a v).latch = s.latch := rfl
@[simp] theorem State.memWrite_inputs (s : State) (a v : Byte) : (s.memWrite a v).inputs = s.inputs := rfl
@[simp] theorem State.memWrite_cfg (s : State) (a v : Byte) : (s.memWrite a v).cfg = s.cfg := rfl
@[simp] theorem State.memWrite_mem (s : State) (a v : Byte) : (s.memWrite a v).mem = Memory.write s.mem a v := rfl

/-! ## advance and jump -/

@[simp] theorem State.advance_regs (s : State) (n : Nat) : (s.advance n).regs = s.regs := rfl
@[simp] theorem State.advance_mem (s : State) (n : Nat) : (s.advance n).mem = s.mem := rfl
@[simp] theorem State.advance_engine (s : State) (n : Nat) : (s.advance n).engine = s.engine := rfl
@[simp] theorem State.advance_haltCode (s : State) (n : Nat) : (s.advance n).haltCode = s.haltCode := rfl
@[simp] theorem State.advance_haltPc (s : State) (n : Nat) : (s.advance n).haltPc = s.haltPc := rfl
@[simp] theorem State.advance_haltOp (s : State) (n : Nat) : (s.advance n).haltOp = s.haltOp := rfl
@[simp] theorem State.advance_out (s : State) (n : Nat) : (s.advance n).out = s.out := rfl
@[simp] theorem State.advance_outPort (s : State) (n : Nat) : (s.advance n).outPort = s.outPort := rfl
@[simp] theorem State.advance_latch (s : State) (n : Nat) : (s.advance n).latch = s.latch := rfl
@[simp] theorem State.advance_inputs (s : State) (n : Nat) : (s.advance n).inputs = s.inputs := rfl
@[simp] theorem State.advance_cfg (s : State) (n : Nat) : (s.advance n).cfg = s.cfg := rfl
@[simp] theorem State.advance_pc (s : State) (n : Nat) : (s.advance n).pc = s.pc + BitVec.ofNat 9 n := rfl
@[simp] theorem State.jump_regs (s : State) (v : Byte) : (s.jump v).regs = s.regs := rfl
@[simp] theorem State.jump_mem (s : State) (v : Byte) : (s.jump v).mem = s.mem := rfl
@[simp] theorem State.jump_engine (s : State) (v : Byte) : (s.jump v).engine = s.engine := rfl
@[simp] theorem State.jump_haltCode (s : State) (v : Byte) : (s.jump v).haltCode = s.haltCode := rfl
@[simp] theorem State.jump_haltPc (s : State) (v : Byte) : (s.jump v).haltPc = s.haltPc := rfl
@[simp] theorem State.jump_haltOp (s : State) (v : Byte) : (s.jump v).haltOp = s.haltOp := rfl
@[simp] theorem State.jump_out (s : State) (v : Byte) : (s.jump v).out = s.out := rfl
@[simp] theorem State.jump_outPort (s : State) (v : Byte) : (s.jump v).outPort = s.outPort := rfl
@[simp] theorem State.jump_latch (s : State) (v : Byte) : (s.jump v).latch = s.latch := rfl
@[simp] theorem State.jump_inputs (s : State) (v : Byte) : (s.jump v).inputs = s.inputs := rfl
@[simp] theorem State.jump_cfg (s : State) (v : Byte) : (s.jump v).cfg = s.cfg := rfl
@[simp] theorem State.jump_pc (s : State) (v : Byte) : (s.jump v).pc = v.setWidth 9 := rfl

/-! ## emit -/

@[simp] theorem State.emit_regs (s : State) (v : Byte) : (s.emit v).regs = s.regs := rfl
@[simp] theorem State.emit_pc (s : State) (v : Byte) : (s.emit v).pc = s.pc := rfl
@[simp] theorem State.emit_mem (s : State) (v : Byte) : (s.emit v).mem = s.mem := rfl
@[simp] theorem State.emit_engine (s : State) (v : Byte) : (s.emit v).engine = s.engine := rfl
@[simp] theorem State.emit_haltCode (s : State) (v : Byte) : (s.emit v).haltCode = s.haltCode := rfl
@[simp] theorem State.emit_haltPc (s : State) (v : Byte) : (s.emit v).haltPc = s.haltPc := rfl
@[simp] theorem State.emit_haltOp (s : State) (v : Byte) : (s.emit v).haltOp = s.haltOp := rfl
@[simp] theorem State.emit_latch (s : State) (v : Byte) : (s.emit v).latch = s.latch := rfl
@[simp] theorem State.emit_inputs (s : State) (v : Byte) : (s.emit v).inputs = s.inputs := rfl
@[simp] theorem State.emit_cfg (s : State) (v : Byte) : (s.emit v).cfg = s.cfg := rfl
@[simp] theorem State.emit_out (s : State) (v : Byte) : (s.emit v).out = s.out ++ [v] := rfl
@[simp] theorem State.emit_outPort (s : State) (v : Byte) : (s.emit v).outPort = some v := rfl

/-! ## enterHalted -/

@[simp] theorem State.enterHalted_regs (s : State) (c : HaltCode) (op : Byte) : (s.enterHalted c op).regs = s.regs := rfl
@[simp] theorem State.enterHalted_pc (s : State) (c : HaltCode) (op : Byte) : (s.enterHalted c op).pc = s.pc := rfl
@[simp] theorem State.enterHalted_mem (s : State) (c : HaltCode) (op : Byte) : (s.enterHalted c op).mem = s.mem := rfl
@[simp] theorem State.enterHalted_out (s : State) (c : HaltCode) (op : Byte) : (s.enterHalted c op).out = s.out := rfl
@[simp] theorem State.enterHalted_outPort (s : State) (c : HaltCode) (op : Byte) : (s.enterHalted c op).outPort = s.outPort := rfl
@[simp] theorem State.enterHalted_latch (s : State) (c : HaltCode) (op : Byte) : (s.enterHalted c op).latch = s.latch := rfl
@[simp] theorem State.enterHalted_inputs (s : State) (c : HaltCode) (op : Byte) : (s.enterHalted c op).inputs = s.inputs := rfl
@[simp] theorem State.enterHalted_cfg (s : State) (c : HaltCode) (op : Byte) : (s.enterHalted c op).cfg = s.cfg := rfl
@[simp] theorem State.enterHalted_engine (s : State) (c : HaltCode) (op : Byte) : (s.enterHalted c op).engine = .halted := rfl
@[simp] theorem State.enterHalted_haltCode (s : State) (c : HaltCode) (op : Byte) : (s.enterHalted c op).haltCode = c.bits := rfl
@[simp] theorem State.enterHalted_haltPc (s : State) (c : HaltCode) (op : Byte) : (s.enterHalted c op).haltPc = s.pc := rfl
@[simp] theorem State.enterHalted_haltOp (s : State) (c : HaltCode) (op : Byte) : (s.enterHalted c op).haltOp = op := rfl

/-! ## drive -/

@[simp] theorem State.drive_regs (s : State) (p : Inputs) : (s.drive p).regs = s.regs := rfl
@[simp] theorem State.drive_pc (s : State) (p : Inputs) : (s.drive p).pc = s.pc := rfl
@[simp] theorem State.drive_mem (s : State) (p : Inputs) : (s.drive p).mem = s.mem := rfl
@[simp] theorem State.drive_engine (s : State) (p : Inputs) : (s.drive p).engine = s.engine := rfl
@[simp] theorem State.drive_haltCode (s : State) (p : Inputs) : (s.drive p).haltCode = s.haltCode := rfl
@[simp] theorem State.drive_haltPc (s : State) (p : Inputs) : (s.drive p).haltPc = s.haltPc := rfl
@[simp] theorem State.drive_haltOp (s : State) (p : Inputs) : (s.drive p).haltOp = s.haltOp := rfl
@[simp] theorem State.drive_out (s : State) (p : Inputs) : (s.drive p).out = s.out := rfl
@[simp] theorem State.drive_outPort (s : State) (p : Inputs) : (s.drive p).outPort = s.outPort := rfl
@[simp] theorem State.drive_latch (s : State) (p : Inputs) : (s.drive p).latch = s.latch := rfl
@[simp] theorem State.drive_cfg (s : State) (p : Inputs) : (s.drive p).cfg = s.cfg := rfl
@[simp] theorem State.drive_inputs (s : State) (p : Inputs) : (s.drive p).inputs = p := rfl

/-! ## Reading a register after a write -/

/-- A register reads as what the last write to it stored. -/
@[simp] theorem State.reg_setReg_same (s : State) (r : Reg) (v : Byte) : (s.setReg r v).reg r = v := by
  simp [State.reg]

/-- A write to one register leaves every other alone. -/
theorem State.reg_setReg_other (s : State) (r q : Reg) (v : Byte) (h : q ≠ r) : (s.setReg r v).reg q = s.reg q := by
  have h' : r.val ≠ q.val := fun e => h (Fin.ext e.symm)
  simp [State.reg, Vector.getElem_set_ne, h']

@[simp] theorem State.reg_memWrite (s : State) (a v : Byte) (r : Reg) : (s.memWrite a v).reg r = s.reg r := rfl
@[simp] theorem State.reg_advance (s : State) (n : Nat) (r : Reg) : (s.advance n).reg r = s.reg r := rfl
@[simp] theorem State.reg_jump (s : State) (v : Byte) (r : Reg) : (s.jump v).reg r = s.reg r := rfl
@[simp] theorem State.reg_emit (s : State) (v : Byte) (r : Reg) : (s.emit v).reg r = s.reg r := rfl
@[simp] theorem State.reg_enterHalted (s : State) (c : HaltCode) (op : Byte) (r : Reg) : (s.enterHalted c op).reg r = s.reg r := rfl

/-! ## Reading memory after an update that is no store -/

@[simp] theorem State.memRead_setReg (s : State) (r : Reg) (v a : Byte) : (s.setReg r v).memRead a = s.memRead a := rfl
@[simp] theorem State.memRead_advance (s : State) (n : Nat) (a : Byte) : (s.advance n).memRead a = s.memRead a := rfl
@[simp] theorem State.memRead_jump (s : State) (v a : Byte) : (s.jump v).memRead a = s.memRead a := rfl
@[simp] theorem State.memRead_emit (s : State) (v a : Byte) : (s.emit v).memRead a = s.memRead a := rfl
@[simp] theorem State.memRead_enterHalted (s : State) (c : HaltCode) (op a : Byte) : (s.enterHalted c op).memRead a = s.memRead a := rfl

end Sys2Proof.Machine
end

