-- ==== Sys2Proof/Laws/Fetch.lean ====
section
/-! SUPPORT. Laws/Fetch.lean: the fetch latches the operand slots, ends the out_valid pulse, and changes nothing else. -/

namespace Sys2Proof.Machine

@[simp] theorem State.latched_regs (s : State) : s.latched.regs = s.regs := by unfold State.latched; split <;> rfl
@[simp] theorem State.latched_pc (s : State) : s.latched.pc = s.pc := by unfold State.latched; split <;> rfl
@[simp] theorem State.latched_mem (s : State) : s.latched.mem = s.mem := by unfold State.latched; split <;> rfl
@[simp] theorem State.latched_engine (s : State) : s.latched.engine = s.engine := by unfold State.latched; split <;> rfl
@[simp] theorem State.latched_haltCode (s : State) : s.latched.haltCode = s.haltCode := by unfold State.latched; split <;> rfl
@[simp] theorem State.latched_haltPc (s : State) : s.latched.haltPc = s.haltPc := by unfold State.latched; split <;> rfl
@[simp] theorem State.latched_haltOp (s : State) : s.latched.haltOp = s.haltOp := by unfold State.latched; split <;> rfl
@[simp] theorem State.latched_out (s : State) : s.latched.out = s.out := by unfold State.latched; split <;> rfl
@[simp] theorem State.latched_inputs (s : State) : s.latched.inputs = s.inputs := by unfold State.latched; split <;> rfl
@[simp] theorem State.latched_cfg (s : State) : s.latched.cfg = s.cfg := by unfold State.latched; split <;> rfl
@[simp] theorem State.latched_outPort (s : State) : s.latched.outPort = none := by unfold State.latched; split <;> rfl

@[simp] theorem State.reg_latched (s : State) (r : Reg) : s.latched.reg r = s.reg r := by simp [State.reg]

@[simp] theorem State.memRead_latched (s : State) (a : Byte) : s.latched.memRead a = s.memRead a := by simp [State.memRead]

/-- A slot inside memory holds its byte. -/
theorem State.slot_of_le {s : State} {k : Nat} (h : s.pc.toNat + k ≤ 255) : s.slot k = some (s.memRead (mod256 (s.pc.toNat + k))) := by
  simp [State.slot, h]

/-- A slot past address 255 is invalid. -/
theorem State.slot_of_gt {s : State} {k : Nat} (h : 255 < s.pc.toNat + k) : s.slot k = none := by
  simp [State.slot, Nat.not_le.mpr h]

/-- The latch after a fetch that does not fault. -/
theorem State.latched_latch {s : State} {op : Byte} (h : s.slot 0 = some op) : s.latched.latch = ⟨op, s.slot 1, s.slot 2⟩ := by
  simp [State.latched, h]

/-- A fetch past the end faults. -/
theorem State.fetchDecode_of_none {s : State} (h : s.slot 0 = none) : s.fetchDecode = .error (.memAddr, 0) := by
  simp [State.fetchDecode, h, haltOfDecodeError]

/-- Otherwise the decoder reads the opcode and the two slots. -/
theorem State.fetchDecode_of_some {s : State} {op : Byte} (h : s.slot 0 = some op) :
    s.fetchDecode = (decode s.cfg.extAlu op (s.slot 1) (s.slot 2)).mapError haltOfDecodeError := by
  simp only [State.fetchDecode, h, State.latched_latch h]
  cases decode s.cfg.extAlu op (s.slot 1) (s.slot 2) <;> rfl

end Sys2Proof.Machine
end

