-- ==== Sys2Proof/Laws/Ops.lean ====
section
/-! SUPPORT. Laws/Ops.lean: what each shared operation of the meanings can do, said once. -/

namespace Sys2Proof.Machine

/-! ## Sequencing -/

@[simp] theorem ok_bind {α β : Type} (x : α) (f : α → Except HaltCode β) : ((Except.ok x : Except HaltCode α) >>= f) = f x := rfl

@[simp] theorem error_bind {α β : Type} (c : HaltCode) (f : α → Except HaltCode β) :
    ((Except.error c : Except HaltCode α) >>= f) = .error c := rfl

/-! ## Operands -/

/-- A byte of at most 7 names a register. -/
theorem regOperand_of_lt {b : Byte} (h : b.toNat < 8) : regOperand b = .ok ⟨b.toNat, h⟩ := by simp [regOperand, h]

/-- A byte over 7 raises ERR_REG_INDEX. -/
theorem regOperand_of_ge {b : Byte} (h : 8 ≤ b.toNat) : regOperand b = .error .regIndex := by
  simp [regOperand, Nat.not_lt.mpr h]

/-- What a register operand can be. -/
theorem regOperand_cases (b : Byte) :
    (∃ h : b.toNat < 8, regOperand b = .ok ⟨b.toNat, h⟩) ∨ (8 ≤ b.toNat ∧ regOperand b = .error .regIndex) := by
  by_cases h : b.toNat < 8
  · exact .inl ⟨h, regOperand_of_lt h⟩
  · exact .inr ⟨by omega, regOperand_of_ge (by omega)⟩

/-! ## The stack pointer -/

theorem decSp_of_ne {s : State} (h : s.reg 7 ≠ 0) : decSp s = .ok (s.setReg 7 (s.reg 7 - 1)) := if_neg h

theorem decSp_of_eq {s : State} (h : s.reg 7 = 0) : decSp s = .error .spRange := if_pos h

theorem incSp_of_ne {s : State} (h : s.reg 7 ≠ 255) : incSp s = .ok (s.setReg 7 (s.reg 7 + 1)) := if_neg h

theorem incSp_of_eq {s : State} (h : s.reg 7 = 255) : incSp s = .error .spRange := if_pos h

/-- What the decrement can do (43_stack.md R230). -/
theorem decSp_cases (s : State) :
    (s.reg 7 ≠ 0 ∧ decSp s = .ok (s.setReg 7 (s.reg 7 - 1))) ∨ (s.reg 7 = 0 ∧ decSp s = .error .spRange) := by
  by_cases h : s.reg 7 = 0
  · exact .inr ⟨h, decSp_of_eq h⟩
  · exact .inl ⟨h, decSp_of_ne h⟩

/-- What the increment can do (43_stack.md R231). -/
theorem incSp_cases (s : State) :
    (s.reg 7 ≠ 255 ∧ incSp s = .ok (s.setReg 7 (s.reg 7 + 1))) ∨ (s.reg 7 = 255 ∧ incSp s = .error .spRange) := by
  by_cases h : s.reg 7 = 255
  · exact .inr ⟨h, incSp_of_eq h⟩
  · exact .inl ⟨h, incSp_of_ne h⟩

/-! ## The ALU -/

/-- A base tag is always supported. -/
theorem alu_base {tag : AluTag} (ext : Bool) (h : tag.isExt = false) (a b : Byte) : alu ext tag a b = aluResult tag a b := by
  simp [alu, h]

/-- With `EXT_ALU` every tag is supported. -/
theorem alu_ext (tag : AluTag) (a b : Byte) : alu true tag a b = aluResult tag a b := by simp [alu]

/-- Without it an extension tag raises ERR_ALU_UNSUPPORTED (42_alu.md R182). -/
theorem alu_unsupported {tag : AluTag} (h : tag.isExt = true) (a b : Byte) : alu false tag a b = .error .aluUnsupported := by
  simp [alu, h]

/-- What the ALU can do: a result, an unsupported tag, or a divisor of 0. -/
theorem alu_cases (ext : Bool) (tag : AluTag) (a b : Byte) :
    (∃ r, alu ext tag a b = .ok r) ∨ (alu ext tag a b = .error .aluUnsupported ∧ tag.isExt = true ∧ ext = false) ∨
      (alu ext tag a b = .error .divZero ∧ b = 0 ∧ (tag = .div ∨ tag = .mod)) := by
  cases ext <;> cases tag <;> simp [alu, aluResult, AluTag.isExt] <;> by_cases h : b = 0#8 <;> simp [h]

/-- What a two-register ALU rule can do: write its destination and advance, or raise (42_alu.md R183). -/
theorem aluPair_cases (tag : AluTag) (ra rb : Byte) (s : State) :
    (∃ (h : ra.toNat < 8) (k : rb.toNat < 8) (r : Byte),
      alu s.cfg.extAlu tag (s.reg ⟨ra.toNat, h⟩) (s.reg ⟨rb.toNat, k⟩) = .ok r ∧
      aluPair tag ra rb s = .ok ((s.setReg ⟨ra.toNat, h⟩ r).advance 3)) ∨
    ∃ c, aluPair tag ra rb s = .error c := by
  rcases regOperand_cases ra with ⟨h, ea⟩ | ⟨_, ea⟩
  · rcases regOperand_cases rb with ⟨k, eb⟩ | ⟨_, eb⟩
    · rcases e : alu s.cfg.extAlu tag (s.reg ⟨ra.toNat, h⟩) (s.reg ⟨rb.toNat, k⟩) with c | r
      · exact .inr ⟨c, by simp [aluPair, ea, eb, e]⟩
      · exact .inl ⟨h, k, r, e, by simp [aluPair, ea, eb, e]⟩
    · exact .inr ⟨.regIndex, by simp [aluPair, ea, eb]⟩
  · exact .inr ⟨.regIndex, by simp [aluPair, ea]⟩

/-! ## Commit -/

@[simp] theorem commit_ok (op : Byte) (s t : State) : commit op s (.ok t) = .next t := rfl

@[simp] theorem commit_error (op : Byte) (s : State) (c : HaltCode) : commit op s (.error c) = .next (s.enterHalted c op) := rfl

/-- What a commit can do: the rule's own state, or a halt that discards it (40_execute_cycle.md R138). -/
theorem commit_cases {op : Byte} {s t : State} {rule : Except HaltCode State} (h : commit op s rule = .next t) :
    rule = .ok t ∨ ∃ c, rule = .error c ∧ t = s.enterHalted c op := by
  cases rule with
  | ok u => exact .inl (by simpa using h)
  | error c => exact .inr ⟨c, rfl, by simpa using h.symm⟩

end Sys2Proof.Machine
end

