-- ==== Sys2Proof/Laws/Step.lean ====
section
/-! SUPPORT. Laws/Step.lean: what a step does in each engine state, and that every meaning answers a next state. -/

namespace Sys2Proof.Machine

theorem step_rst {s : State} (h : s.inputs.rst = true) : step s = .next s.onRst := by simp [step, h]

theorem step_ready {s : State} (h : s.inputs.rst = false) (e : s.engine = .ready) : step s = .next s.readyCycle := by
  simp [step, h, e]

theorem step_halted {s : State} (h : s.inputs.rst = false) (e : s.engine = .halted) : step s = .next s := by
  simp [step, h, e]

/-- A running step that decodes an instruction runs it. -/
theorem step_decoded {s : State} {i : Instr} (h : s.runs) (d : s.fetchDecode = .ok i) : step s = exec i s.latched := by
  simp [step, h.1, h.2, d]

/-- A running step that does not halts with the code of the failed check. -/
theorem step_undecoded {s : State} {c : HaltCode} {op : Byte} (h : s.runs) (d : s.fetchDecode = .error (c, op)) :
    step s = .next (s.latched.enterHalted c op) := by
  simp [step, h.1, h.2, d]

/-- Every meaning is a commit of its rule, but for HLT, which halts. -/
theorem exec_commit (i : Instr) (s : State) :
    (∃ rule, exec i s = commit i.opcode s rule) ∨ (i = .hlt ∧ exec i s = .next (s.enterHalted .haltOk i.opcode)) := by
  cases i <;> first
    | exact .inl ⟨_, rfl⟩
    | exact .inr ⟨rfl, rfl⟩

/-- Every meaning answers a next state: no instruction stops by a fault or a refusal. -/
theorem exec_next (i : Instr) (s : State) : ∃ t, exec i s = .next t := by
  rcases exec_commit i s with ⟨rule, h⟩ | ⟨_, h⟩
  · exact ⟨_, h⟩
  · exact ⟨_, h⟩

/-- Every step answers a next state. -/
theorem step_next (s : State) : ∃ t, step s = .next t := by
  unfold step
  split
  · exact ⟨_, rfl⟩
  · split
    · exact ⟨_, rfl⟩
    · exact ⟨_, rfl⟩
    · split
      · exact ⟨_, rfl⟩
      · exact exec_next _ _

/-- The operand byte of a register is legal. -/
theorem regByte_toNat (r : Reg) : (regByte r).toNat = r.val := by
  have := r.isLt
  simp only [regByte, BitVec.toNat_ofNat]
  omega

/-- The operand byte of a register names it. -/
@[simp] theorem regOperand_regByte (r : Reg) : regOperand (regByte r) = .ok r := by
  have h : (regByte r).toNat < 8 := by rw [regByte_toNat]; exact r.isLt
  rw [regOperand_of_lt h]
  exact congrArg Except.ok (Fin.ext (regByte_toNat r))

/-- The halt entry, by its number. -/
theorem enterHalted_eq (s : State) (c : HaltCode) (op : Byte) : s.enterHalted c op = s.haltedWith c.bits op := rfl

/-! ## From the bytes at PC to the step -/

/-- The bytes that lie at PC + k on are those of the operand slots from k on. -/
theorem slot_of_codeAt {s : State} {bs : List Byte} {k : Nat} (h : codeAt s.mem (s.pc.toNat + k) bs = true) {j : Nat} {b : Byte}
    (e : bs[j]? = some b) : s.slot (k + j) = some b := by
  induction bs generalizing k j with
  | nil => simp at e
  | cons c cs ih =>
    simp only [codeAt, Bool.and_eq_true, decide_eq_true_eq] at h
    cases j with
    | zero =>
      obtain rfl : c = b := by simpa using e
      exact (State.slot_of_le h.1.1).trans (congrArg some h.1.2)
    | succ j =>
      rw [← ih (k := k + 1) h.2 (by simpa using e)]
      exact congrArg s.slot (by omega)

/-- The bytes at PC are the opcode and the operand slots. -/
theorem slot_of_codeIs {s : State} {bs : List Byte} (h : s.codeIs bs) {j : Nat} {b : Byte} (e : bs[j]? = some b) : s.slot j = some b := by
  simpa using slot_of_codeAt (k := 0) h e

/-- Where the opcode and the slots decode, the step runs the instruction. -/
theorem stepRuns_of_decode {s : State} {op : Byte} {rest : List Byte} {i : Instr}
    (d : s.codeIs (op :: rest) → decode s.cfg.extAlu op (s.slot 1) (s.slot 2) = .ok i) : StepRuns s (op :: rest) i := by
  intro h c
  apply step_decoded h
  rw [State.fetchDecode_of_some (slot_of_codeIs c rfl), d c]
  rfl

/-- A two-byte instruction whose operand byte lies past address 255 halts. -/
theorem stepCutOff_two {s : State} {op : Byte} (d : ∀ b, decode s.cfg.extAlu op none b = .error (.operandAddress op)) :
    StepCutOff s op 2 := by
  intro h c k
  refine step_undecoded (c := .memAddr) h ?_
  rw [State.fetchDecode_of_some (slot_of_codeIs c rfl), State.slot_of_gt (by omega : 255 < s.pc.toNat + 1), d]
  rfl

/-- A three-byte instruction whose last byte lies past address 255 halts. -/
theorem stepCutOff_three {s : State} {op : Byte} (d : ∀ a, decode s.cfg.extAlu op a none = .error (.operandAddress op)) :
    StepCutOff s op 3 := by
  intro h c k
  refine step_undecoded (c := .memAddr) h ?_
  rw [State.fetchDecode_of_some (slot_of_codeIs c rfl), State.slot_of_gt (by omega : 255 < s.pc.toNat + 2), d]
  rfl

/-- An unknown opcode halts. -/
theorem stepUnknown_of_decode {s : State} {op : Byte} (d : ∀ a b, decode s.cfg.extAlu op a b = .error (.unknownOpcode op)) :
    StepUnknown s op := by
  intro h c
  refine step_undecoded (c := .unknownOpcode) h ?_
  rw [State.fetchDecode_of_some (slot_of_codeIs c rfl), d]
  rfl

end Sys2Proof.Machine
end

