-- ==== Sys2Proof/Laws/Decode.lean ====
section
/-! SUPPORT. Laws/Decode.lean: what the decoder and the fetch of a running step can give, said once. -/

namespace Sys2Proof.Machine

/-- An opcode byte is undefined, or has exactly the format and the instruction of its row (30_encoding.md R96 to R98, R103). -/
theorem findShape_cases (ext : Bool) (op : Byte) :
    (op ∉ definedOpcodes ext ∧ findShape ext op = none) ∨
    (op ∈ definedOpcodes ext ∧ ∃ sh, findShape ext op = some sh ∧
      ((op = 0x01 ∧ sh = .z .hlt) ∨ (op = 0x82 ∧ sh = .ri .ldi) ∨ (op = 0x47 ∧ sh = .r .prn) ∨ (op = 0xA2 ∧ sh = .rr .mul) ∨
       (op = 0xA0 ∧ sh = .rr .add) ∨ (op = 0x45 ∧ sh = .r .push) ∨ (op = 0x46 ∧ sh = .r .pop) ∨ (op = 0x50 ∧ sh = .r .call) ∨
       (op = 0x11 ∧ sh = .z .ret) ∨ (op = 0xA7 ∧ sh = .rr .cmp) ∨ (op = 0x54 ∧ sh = .r .jmp) ∨ (op = 0x55 ∧ sh = .r .jeq) ∨
       (op = 0x56 ∧ sh = .r .jne) ∨
       (ext = true ∧ op = 0xA1 ∧ sh = .rr .sub) ∨ (ext = true ∧ op = 0xA3 ∧ sh = .rr .div) ∨ (ext = true ∧ op = 0xA4 ∧ sh = .rr .mod) ∨
       (ext = true ∧ op = 0xA8 ∧ sh = .rr .and) ∨ (ext = true ∧ op = 0xAA ∧ sh = .rr .or) ∨ (ext = true ∧ op = 0xAB ∧ sh = .rr .xor) ∨
       (ext = true ∧ op = 0x69 ∧ sh = .r .not) ∨ (ext = true ∧ op = 0xAC ∧ sh = .rr .shl) ∨ (ext = true ∧ op = 0xAD ∧ sh = .rr .shr))) := by
  by_cases hd : op ∈ definedOpcodes ext
  · refine .inr ⟨hd, ?_⟩
    cases ext
    · simp only [definedOpcodes, zOpcodes, rOpcodes, rrOpcodes, riOpcodes, List.mem_append, List.mem_cons, List.not_mem_nil,
        or_false, Bool.false_eq_true, if_false] at hd
      rcases hd with (((h | h) | (h | h | h | h | h | h | h)) | (h | h | h)) | h <;> subst h <;> exact ⟨_, rfl, by simp⟩
    · simp only [definedOpcodes, zOpcodes, rOpcodes, rrOpcodes, riOpcodes, List.mem_append, List.mem_cons, List.not_mem_nil,
        or_false, if_true] at hd
      rcases hd with (((h | h) | ((h | h | h | h | h | h | h) | h)) | ((h | h | h) | (h | h | h | h | h | h | h | h))) | h <;>
        subst h <;> exact ⟨_, rfl, by simp⟩
  · refine .inl ⟨hd, ?_⟩
    cases ext <;> simp [definedOpcodes, zOpcodes, rOpcodes, rrOpcodes, riOpcodes] at hd <;>
      simp [findShape, opcodeTable, baseRows, extRows] <;> simp_all [eq_comm]

/-- The instruction a running step fetches, with the bytes it is read from, all of them inside memory. -/
def Fetched (s : State) (i : Instr) : Prop :=
  s.byteAt 0 = i.opcode ∧ s.pc.toNat + (encode i).length ≤ 256 ∧ (i.isExt = true → s.cfg.extAlu = true) ∧
  match i with
  | .hlt | .ret => True
  | .prn ra | .push ra | .pop ra | .call ra | .jmp ra | .jeq ra | .jne ra | .not ra => ra = s.byteAt 1
  | .ldi ra b | .mul ra b | .add ra b | .cmp ra b | .sub ra b | .div ra b | .mod ra b | .and ra b | .or ra b | .xor ra b | .shl ra b
  | .shr ra b => ra = s.byteAt 1 ∧ b = s.byteAt 2

/-- The byte at PC, where PC is inside memory. -/
theorem State.slot_zero {s : State} (h : s.pc.toNat ≤ 255) : s.slot 0 = some (s.byteAt 0) := State.slot_of_le (k := 0) h

/-- The byte k places after PC, where that is inside memory. -/
theorem State.slot_byteAt {s : State} {k : Nat} (h : s.pc.toNat + k ≤ 255) : s.slot k = some (s.byteAt k) := State.slot_of_le h

/-- What the fetch and decode of a running step can give (40_execute_cycle.md R131 to R133): a fetch fault, an unknown opcode, a declared
operand past address 255, or the instruction whose bytes lie at PC. -/
theorem State.fetchDecode_cases (s : State) :
    (255 < s.pc.toNat ∧ s.fetchDecode = .error (.memAddr, 0)) ∨
    (s.pc.toNat ≤ 255 ∧ s.byteAt 0 ∉ definedOpcodes s.cfg.extAlu ∧ s.fetchDecode = .error (.unknownOpcode, s.byteAt 0)) ∨
    (s.pc.toNat ≤ 255 ∧ s.byteAt 0 ∈ definedOpcodes s.cfg.extAlu ∧
      (s.byteAt 0 ∈ rOpcodes s.cfg.extAlu ∧ 255 < s.pc.toNat + 1 ∨
       s.byteAt 0 ∈ rrOpcodes s.cfg.extAlu ∧ 255 < s.pc.toNat + 2 ∨
       s.byteAt 0 ∈ riOpcodes ∧ 255 < s.pc.toNat + 2) ∧
      s.fetchDecode = .error (.memAddr, s.byteAt 0)) ∨
    (s.pc.toNat ≤ 255 ∧ s.byteAt 0 ∈ definedOpcodes s.cfg.extAlu ∧ ∃ i, s.fetchDecode = .ok i ∧ Fetched s i) := by
  by_cases h : s.pc.toNat ≤ 255
  · right
    have e := State.fetchDecode_of_some (State.slot_zero h)
    rcases findShape_cases s.cfg.extAlu (s.byteAt 0) with ⟨a, b⟩ | ⟨a, sh, b, k⟩
    · exact .inl ⟨h, a, by rw [e, decode, b]; rfl⟩
    · right
      rw [decode, b] at e
      have one : 255 < s.pc.toNat + 1 → s.slot 1 = none := State.slot_of_gt
      have two : 255 < s.pc.toNat + 2 → s.slot 2 = none := State.slot_of_gt
      cases sh with
      | z i =>
        refine .inr ⟨h, a, i, e, ?_⟩
        simp only [Shape.z.injEq, reduceCtorEq, and_false, or_false, false_or] at k
        rcases k with ⟨x, rfl⟩ | ⟨x, rfl⟩ <;> exact ⟨x, by simp [encode, Instr.operandBytes]; omega, by simp [Instr.isExt], trivial⟩
      | r mk =>
        simp only [Shape.r.injEq, reduceCtorEq, and_false, or_false, false_or] at k
        by_cases q : s.pc.toNat + 1 ≤ 255
        · rw [State.slot_byteAt q] at e
          refine .inr ⟨h, a, _, e, ?_⟩
          rcases k with ⟨x, rfl⟩ | ⟨x, rfl⟩ | ⟨x, rfl⟩ | ⟨x, rfl⟩ | ⟨x, rfl⟩ | ⟨x, rfl⟩ | ⟨x, rfl⟩ | ⟨y, x, rfl⟩ <;>
            exact ⟨x, by simp [encode, Instr.operandBytes]; omega, by simp [Instr.isExt, *], rfl⟩
        · rw [one (by omega)] at e
          refine .inl ⟨h, a, .inl ⟨?_, by omega⟩, e⟩
          rcases k with ⟨x, rfl⟩ | ⟨x, rfl⟩ | ⟨x, rfl⟩ | ⟨x, rfl⟩ | ⟨x, rfl⟩ | ⟨x, rfl⟩ | ⟨x, rfl⟩ | ⟨y, x, rfl⟩ <;> simp [rOpcodes, *]
      | rr mk =>
        simp only [Shape.rr.injEq, reduceCtorEq, and_false, false_or] at k
        by_cases q : s.pc.toNat + 2 ≤ 255
        · rw [State.slot_byteAt q, State.slot_byteAt (by omega : s.pc.toNat + 1 ≤ 255)] at e
          refine .inr ⟨h, a, _, e, ?_⟩
          rcases k with ⟨x, rfl⟩ | ⟨x, rfl⟩ | ⟨x, rfl⟩ | ⟨y, x, rfl⟩ | ⟨y, x, rfl⟩ | ⟨y, x, rfl⟩ | ⟨y, x, rfl⟩ | ⟨y, x, rfl⟩ | ⟨y, x, rfl⟩ |
            ⟨y, x, rfl⟩ | ⟨y, x, rfl⟩ <;> exact ⟨x, by simp [encode, Instr.operandBytes]; omega, by simp [Instr.isExt, *], rfl, rfl⟩
        · rw [two (by omega)] at e
          refine .inl ⟨h, a, .inr (.inl ⟨?_, by omega⟩), by rw [e]; cases s.slot 1 <;> rfl⟩
          rcases k with ⟨x, rfl⟩ | ⟨x, rfl⟩ | ⟨x, rfl⟩ | ⟨y, x, rfl⟩ | ⟨y, x, rfl⟩ | ⟨y, x, rfl⟩ | ⟨y, x, rfl⟩ | ⟨y, x, rfl⟩ | ⟨y, x, rfl⟩ |
            ⟨y, x, rfl⟩ | ⟨y, x, rfl⟩ <;> simp [rrOpcodes, *]
      | ri mk =>
        simp only [Shape.ri.injEq, reduceCtorEq, and_false, or_false, false_or] at k
        obtain ⟨x, rfl⟩ := k
        by_cases q : s.pc.toNat + 2 ≤ 255
        · rw [State.slot_byteAt q, State.slot_byteAt (by omega : s.pc.toNat + 1 ≤ 255)] at e
          exact .inr ⟨h, a, _, e, x, by simp [encode, Instr.operandBytes]; omega, by simp [Instr.isExt], rfl, rfl⟩
        · rw [two (by omega)] at e
          exact .inl ⟨h, a, .inr (.inr ⟨by simp [riOpcodes, x], by omega⟩), by rw [e]; cases s.slot 1 <;> rfl⟩
  · exact .inl ⟨by omega, State.fetchDecode_of_none (State.slot_of_gt (by omega))⟩

end Sys2Proof.Machine
end

