-- ==== Sys2Proof/Laws/Exec.lean ====
section
/-! SUPPORT. Laws/Exec.lean: what an instruction can do, said once: where its rule completes it has its effect, and otherwise it halts and
keeps everything but the halt record. Frames, invariants and whole-machine rules follow from `exec_cases`. -/

namespace Sys2Proof.Machine

/-- The state an instruction leaves where its rule completes, with the registers its operand bytes name. -/
def Effect (i : Instr) (s t : State) : Prop :=
  match i with
  | .hlt => False
  | .ldi ra imm => ∃ r, regByte r = ra ∧ t = (s.setReg r imm).advance 3
  | .prn ra => ∃ r, regByte r = ra ∧ t = (s.emit (s.reg r)).advance 2
  | .cmp _ _ => ∃ v, t = (s.setReg 6 v).advance 3
  | .push ra => ∃ r, regByte r = ra ∧ s.reg 7 ≠ 0 ∧
      t = ((s.setReg 7 (s.reg 7 - 1)).memWrite (s.reg 7 - 1) ((s.setReg 7 (s.reg 7 - 1)).reg r)).advance 2
  | .pop ra => ∃ r, regByte r = ra ∧ (s.setReg r (s.memRead (s.reg 7))).reg 7 ≠ 255 ∧
      t = ((s.setReg r (s.memRead (s.reg 7))).setReg 7 ((s.setReg r (s.memRead (s.reg 7))).reg 7 + 1)).advance 2
  | .call ra => ∃ r, regByte r = ra ∧ s.pc.toNat + 2 ≤ 255 ∧ s.reg 7 ≠ 0 ∧
      t = ((s.setReg 7 (s.reg 7 - 1)).memWrite (s.reg 7 - 1) (mod256 (s.pc.toNat + 2))).jump ((s.setReg 7 (s.reg 7 - 1)).reg r)
  | .ret => s.reg 7 ≠ 255 ∧ t = (s.setReg 7 (s.reg 7 + 1)).jump (s.memRead (s.reg 7))
  | .jmp ra => ∃ r, regByte r = ra ∧ t = s.jump (s.reg r)
  | .jeq ra => ∃ r, regByte r = ra ∧ t = if s.equalFlag then s.jump (s.reg r) else s.advance 2
  | .jne ra => ∃ r, regByte r = ra ∧ t = if s.equalFlag then s.advance 2 else s.jump (s.reg r)
  | .not ra => ∃ r v, regByte r = ra ∧ t = (s.setReg r v).advance 2
  | .mul ra _ => ∃ r v, regByte r = ra ∧ t = (s.setReg r v).advance 3
  | .add ra _ => ∃ r v, regByte r = ra ∧ t = (s.setReg r v).advance 3
  | .sub ra _ => ∃ r v, regByte r = ra ∧ t = (s.setReg r v).advance 3
  | .div ra _ => ∃ r v, regByte r = ra ∧ t = (s.setReg r v).advance 3
  | .mod ra _ => ∃ r v, regByte r = ra ∧ t = (s.setReg r v).advance 3
  | .and ra _ => ∃ r v, regByte r = ra ∧ t = (s.setReg r v).advance 3
  | .or ra _ => ∃ r v, regByte r = ra ∧ t = (s.setReg r v).advance 3
  | .xor ra _ => ∃ r v, regByte r = ra ∧ t = (s.setReg r v).advance 3
  | .shl ra _ => ∃ r v, regByte r = ra ∧ t = (s.setReg r v).advance 3
  | .shr ra _ => ∃ r v, regByte r = ra ∧ t = (s.setReg r v).advance 3

/-- A register operand that passes the check is the byte of the register it names. -/
theorem regOperand_ok {b : Byte} {r : Reg} (h : regOperand b = .ok r) : regByte r = b := by
  rcases regOperand_cases b with ⟨k, e⟩ | ⟨_, e⟩
  · rw [e] at h
    cases h
    exact BitVec.eq_of_toNat_eq (regByte_toNat _)
  · rw [e] at h
    cases h

/-- A rule that begins with a register operand completes only with the register named. -/
theorem withReg_ok {ra : Byte} {f : Reg → Except HaltCode State} {t : State} (h : (regOperand ra >>= f) = .ok t) :
    ∃ r, regByte r = ra ∧ f r = .ok t := by
  rcases e : regOperand ra with c | r
  · rw [e] at h; cases h
  · rw [e] at h; exact ⟨r, regOperand_ok e, h⟩

/-- What a completed two-register ALU rule does. -/
theorem aluPair_ok {tag : AluTag} {ra rb : Byte} {s t : State} (h : aluPair tag ra rb s = .ok t) :
    ∃ r v, regByte r = ra ∧ t = (s.setReg r v).advance 3 := by
  rcases aluPair_cases tag ra rb s with ⟨h1, h2, v, _, e⟩ | ⟨c, e⟩
  · rw [e] at h
    cases h
    exact ⟨_, v, regOperand_ok (regOperand_of_lt h1), rfl⟩
  · rw [e] at h
    cases h

/-- What an instruction can do: its effect, or a halt that changes nothing but the halt record (40_execute_cycle.md R138). -/
theorem exec_cases {i : Instr} {s t : State} (h : exec i s = .next t) :
    Effect i s t ∨ ∃ c, t = s.enterHalted c i.opcode := by
  cases i
  case hlt => exact .inr ⟨.haltOk, by simpa [exec, execHlt, eq_comm] using h⟩
  all_goals refine (commit_cases h).imp (fun k => ?_) (fun ⟨c, _, e⟩ => ⟨c, e⟩)
  case ldi =>
    obtain ⟨r, e, k⟩ := withReg_ok k
    cases k; exact ⟨r, e, rfl⟩
  case prn =>
    obtain ⟨r, e, k⟩ := withReg_ok k
    cases k; exact ⟨r, e, rfl⟩
  case jmp =>
    obtain ⟨r, e, k⟩ := withReg_ok k
    cases k; exact ⟨r, e, rfl⟩
  case jeq =>
    obtain ⟨r, e, k⟩ := withReg_ok k
    cases k; exact ⟨r, e, rfl⟩
  case jne =>
    obtain ⟨r, e, k⟩ := withReg_ok k
    cases k; exact ⟨r, e, rfl⟩
  case push =>
    obtain ⟨r, e, k⟩ := withReg_ok k
    rcases decSp_cases s with ⟨z, d⟩ | ⟨_, d⟩ <;> rw [d] at k <;> cases k
    exact ⟨r, e, z, by simp⟩
  case pop =>
    obtain ⟨r, e, k⟩ := withReg_ok k
    rcases incSp_cases (s.setReg r (s.memRead s.sp)) with ⟨z, d⟩ | ⟨_, d⟩ <;> rw [d] at k <;> cases k
    exact ⟨r, e, z, rfl⟩
  case call =>
    obtain ⟨r, e, k⟩ := withReg_ok k
    dsimp only at k
    split at k
    · cases k
    · rename_i p
      rcases decSp_cases s with ⟨z, d⟩ | ⟨_, d⟩ <;> rw [d] at k <;> cases k
      exact ⟨r, e, by omega, z, by simp⟩
  case ret =>
    rcases incSp_cases s with ⟨z, d⟩ | ⟨_, d⟩ <;> rw [d] at k <;> cases k
    exact ⟨z, rfl⟩
  case cmp =>
    obtain ⟨a, _, k⟩ := withReg_ok k
    obtain ⟨b, _, k⟩ := withReg_ok k
    rw [alu_base _ rfl] at k
    cases k; exact ⟨_, rfl⟩
  case not =>
    obtain ⟨r, e, k⟩ := withReg_ok k
    rcases d : alu s.cfg.extAlu .not (s.reg r) 0 with c | v <;> rw [d] at k <;> cases k
    exact ⟨r, v, e, rfl⟩
  all_goals exact aluPair_ok k

end Sys2Proof.Machine
end

