-- ==== Sys2Proof/Laws/HostLoad.lean ====
section
/-! SUPPORT. Laws/HostLoad.lean: what a host write and the load of an image can do. -/

namespace Sys2Proof.Machine

/-- A host write in READY sets its cell, and the ports are as driven (70_reset_and_hazards.md R322). -/
theorem step_hostWrite {s : State} (h : s.engine = .ready) (a d : Byte) :
    step (s.drive (.load a d)) = .next ((s.drive (.load a d)).memWrite a d) := step_ready rfl h

/-- An image with a byte past address 255 is refused. -/
theorem loadImage_tooLong {a : Nat} {img : List Byte} (s : State) (h : 256 < a + img.length) :
    loadImage a img s = .refused .imageTooLong := if_pos h

/-- Any other image is written byte by byte. -/
theorem loadImage_fits {a : Nat} {img : List Byte} (s : State) (h : a + img.length ≤ 256) : loadImage a img s = loadBytes a img s :=
  if_neg (Nat.not_lt.mpr h)

end Sys2Proof.Machine
end

