-- ==== Sys2Proof/Laws/Independence.lean ====
section
/-! SUPPORT. Laws/Independence.lean: no meaning reads the latch or the input ports. -/

namespace Sys2Proof.Machine

/-- The state with another latch and other input ports. -/
def State.rewired (s : State) (l : Latch) (p : Inputs) : State := { s with latch := l, inputs := p }

/-- A meaning does the same on a state with another latch and other input ports (10_state.md R36, R41). -/
theorem exec_rewired {i : Instr} {s t : State} (l : Latch) (p : Inputs) (e : exec i s = .next t) :
    exec i (s.rewired l p) = .next (t.rewired l p) := by
  have hreg : ∀ r, (s.rewired l p).reg r = s.reg r := fun _ => rfl
  have hsp : (s.rewired l p).sp = s.sp := rfl
  have hpc : (s.rewired l p).pc = s.pc := rfl
  have hfl : (s.rewired l p).equalFlag = s.equalFlag := rfl
  have hcfg : (s.rewired l p).cfg = s.cfg := rfl
  have hpop : ∀ r, ((s.rewired l p).setReg r ((s.rewired l p).memRead (s.rewired l p).sp)).sp =
      (s.setReg r (s.memRead s.sp)).sp := fun _ => rfl
  cases i <;>
    simp only [exec, execHlt, execLdi, execPrn, execMul, execAdd, execPush, execPop, execCall, execRet, execCmp, execJmp, execJeq,
      execJne, execSub, execDiv, execMod, execAnd, execOr, execXor, execNot, execShl, execShr, commit, aluPair,
      Host.Outcome.next.injEq, decSp, incSp] at e ⊢ <;>
    subst e
  case hlt => rfl
  case ldi ra _ => cases regOperand ra <;> rfl
  case prn ra => cases regOperand ra <;> rfl
  case jmp ra => cases regOperand ra <;> rfl
  case jeq ra =>
    cases regOperand ra with
    | error c => rfl
    | ok r => simp only [ok_bind, hfl]; cases s.equalFlag <;> rfl
  case jne ra =>
    cases regOperand ra with
    | error c => rfl
    | ok r => simp only [ok_bind, hfl]; cases s.equalFlag <;> rfl
  case push ra =>
    cases regOperand ra with
    | error c => rfl
    | ok r =>
      simp only [ok_bind]
      rw [hsp]
      by_cases z : s.sp = 0
      · simp only [z, if_true]; rfl
      · simp only [z, if_false]; rfl
  case pop ra =>
    cases regOperand ra with
    | error c => rfl
    | ok r =>
      simp only [ok_bind]
      rw [hpop]
      by_cases z : (s.setReg r (s.memRead s.sp)).sp = 255
      · simp only [z, if_true]; rfl
      · simp only [z, if_false]; rfl
  case call ra =>
    cases regOperand ra with
    | error c => rfl
    | ok r =>
      simp only [ok_bind]
      rw [hpc, hsp]
      by_cases y : s.pc.toNat + 2 > 255
      · simp only [y, if_true]; rfl
      · by_cases z : s.sp = 0
        · simp only [y, z, if_true, if_false]; rfl
        · simp only [y, z, if_false]; rfl
  case ret =>
    rw [hsp]
    by_cases z : s.sp = 255
    · simp only [z, if_true]; rfl
    · simp only [z, if_false]; rfl
  case cmp ra rb =>
    cases regOperand ra with
    | error c => rfl
    | ok a => cases regOperand rb <;> rfl
  case not ra =>
    cases regOperand ra with
    | error c => rfl
    | ok a =>
      simp only [ok_bind, hreg, hcfg]
      cases alu s.cfg.extAlu .not (s.reg a) 0 <;> rfl
  all_goals
    rename_i ra rb
    cases regOperand ra with
    | error c => rfl
    | ok a =>
      cases regOperand rb with
      | error c => rfl
      | ok b =>
        simp only [ok_bind, hreg, hcfg]
        generalize alu s.cfg.extAlu _ (s.reg a) (s.reg b) = o
        cases o <;> rfl

end Sys2Proof.Machine
end

