-- ==== Sys2Proof/Laws/Memory.lean ====
section
/-! SUPPORT. Laws/Memory.lean: reading after a write, and the canonical form of memory. -/

namespace Sys2Proof.Machine

/-- An address below every listed one is not listed. -/
theorem Memory.read_of_lt {m : List Host.Cell} {lo : Nat} (h : Memory.wfFrom lo m = true) (a : Byte) (ha : a.toNat < lo) :
    Memory.read m a = Memory.unlisted := by
  induction m generalizing lo with
  | nil => rfl
  | cons c m ih =>
    obtain ⟨b, w⟩ := c
    simp only [Memory.wfFrom, Bool.and_eq_true, decide_eq_true_eq] at h
    rw [Memory.read, if_neg (by omega)]
    exact ih h.2 (by omega)

/-- The canonical form from an address on is one from any lower address on. -/
theorem Memory.wfFrom_mono {m : List Host.Cell} {lo lo' : Nat} (h : Memory.wfFrom lo m = true) (hl : lo' ≤ lo) :
    Memory.wfFrom lo' m = true := by
  cases m with
  | nil => rfl
  | cons c m =>
    simp only [Memory.wfFrom, Bool.and_eq_true, decide_eq_true_eq] at h ⊢
    exact ⟨⟨⟨by omega, h.1.1.2⟩, h.1.2⟩, h.2⟩

/-- A write keeps the canonical form. -/
theorem Memory.wfFrom_write {m : List Host.Cell} {lo : Nat} (h : Memory.wfFrom lo m = true) (a v : Byte) (ha : lo ≤ a.toNat) :
    Memory.wfFrom lo (Memory.write m a v) = true := by
  have ha' : a.toNat < 256 := a.isLt
  induction m generalizing lo with
  | nil =>
    rw [Memory.write]
    split
    · rfl
    · simp [Memory.wfFrom, *]
  | cons c m ih =>
    obtain ⟨b, w⟩ := c
    have h0 := h
    simp only [Memory.wfFrom, Bool.and_eq_true, decide_eq_true_eq] at h
    obtain ⟨⟨⟨hb, hb'⟩, hw⟩, hm⟩ := h
    rw [Memory.write]
    split
    · split
      · exact h0
      · simp only [Memory.wfFrom, Bool.and_eq_true, decide_eq_true_eq]
        exact ⟨⟨⟨ha, ha'⟩, by assumption⟩, ⟨⟨by omega, hb'⟩, hw⟩, hm⟩
    · split
      · split
        · exact Memory.wfFrom_mono hm (by omega)
        · simp only [Memory.wfFrom, Bool.and_eq_true, decide_eq_true_eq]
          exact ⟨⟨⟨ha, ha'⟩, by assumption⟩, by simp [*]⟩
      · simp only [Memory.wfFrom, Bool.and_eq_true, decide_eq_true_eq]
        exact ⟨⟨⟨hb, hb'⟩, hw⟩, ih hm (by omega)⟩

/-- Every memory write keeps the canonical form (20_memory.md R63). -/
theorem Memory.wf_write {m : List Host.Cell} (h : Memory.wf m = true) (a v : Byte) : Memory.wf (Memory.write m a v) = true :=
  Memory.wfFrom_write h a v (Nat.zero_le _)

/-- A write changes no other cell, in any list. -/
theorem Memory.read_write_other (m : List Host.Cell) (a b v : Byte) (h : b ≠ a) : Memory.read (Memory.write m a v) b = Memory.read m b := by
  have hne : a.toNat ≠ b.toNat := fun e => h (BitVec.eq_of_toNat_eq e.symm)
  induction m with
  | nil =>
    rw [Memory.write]
    split
    · rfl
    · simp [Memory.read, hne]
  | cons c m ih =>
    obtain ⟨d, w⟩ := c
    rw [Memory.write]
    split
    · split
      · rfl
      · simp [Memory.read, hne]
    · split
      · rename_i hd
        split <;> simp [Memory.read, hne, ← hd]
      · simp [Memory.read, ih]

/-- A cell reads as what was written to it, in a memory in canonical form. -/
theorem Memory.read_write_same {m : List Host.Cell} {lo : Nat} (h : Memory.wfFrom lo m = true) (a v : Byte) :
    Memory.read (Memory.write m a v) a = v := by
  induction m generalizing lo with
  | nil =>
    rw [Memory.write]
    split
    · simp [Memory.read, *]
    · simp [Memory.read]
  | cons c m ih =>
    obtain ⟨d, w⟩ := c
    simp only [Memory.wfFrom, Bool.and_eq_true, decide_eq_true_eq] at h
    rw [Memory.write]
    split
    · split
      · rename_i hv
        rw [Memory.read, if_neg (by omega), hv]
        exact Memory.read_of_lt h.2 a (by omega)
      · simp [Memory.read]
    · split
      · split
        · rename_i hd hv
          rw [hv]
          exact Memory.read_of_lt h.2 a (by omega)
        · simp [Memory.read]
      · rw [Memory.read, if_neg (by omega)]
        exact ih h.2

end Sys2Proof.Machine
end

