-- ==== Sys2Proof/Laws/PerInstr.lean ====
section
/-! SUPPORT. Laws/PerInstr.lean: statements about every instruction as syntax, one lemma per constructor (LAWS.json). -/

namespace Sys2Proof.Laws.EncodeLength

open Sys2Proof.Machine

/-- 30_encoding.md R95: the length of an instruction is bits 7:6 of its opcode plus 1, and bit 4 is 1 exactly for CALL, RET, JMP, JEQ and
JNE. (R95 derives this from the tables; the decoder does not use it.) -/
def Statement (i : Instr) : Prop :=
  (encode i).length = (i.opcode >>> 6).toNat + 1 ∧ (i.opcode.getLsbD 4 = true ↔ i.opcode ∈ redirectOpcodes)

/-- The statement from an instruction's opcode and length, as R96 and R97 list them. -/
theorem of_row {i : Instr} (op : Byte) (n : Nat) (ho : i.opcode = op) (hn : (encode i).length = n)
    (h : decide (n = (op >>> 6).toNat + 1 ∧ (op.getLsbD 4 = true ↔ op ∈ redirectOpcodes)) = true) : Statement i := by
  unfold Statement
  rw [ho, hn]
  exact of_decide_eq_true h

theorem hlt : Statement .hlt := of_row 0x01 1 rfl rfl rfl
theorem ldi (ra imm : Byte) : Statement (.ldi ra imm) := of_row 0x82 3 rfl rfl rfl
theorem prn (ra : Byte) : Statement (.prn ra) := of_row 0x47 2 rfl rfl rfl
theorem mul (ra rb : Byte) : Statement (.mul ra rb) := of_row 0xA2 3 rfl rfl rfl
theorem add (ra rb : Byte) : Statement (.add ra rb) := of_row 0xA0 3 rfl rfl rfl
theorem push (ra : Byte) : Statement (.push ra) := of_row 0x45 2 rfl rfl rfl
theorem pop (ra : Byte) : Statement (.pop ra) := of_row 0x46 2 rfl rfl rfl
theorem call (ra : Byte) : Statement (.call ra) := of_row 0x50 2 rfl rfl rfl
theorem ret : Statement .ret := of_row 0x11 1 rfl rfl rfl
theorem cmp (ra rb : Byte) : Statement (.cmp ra rb) := of_row 0xA7 3 rfl rfl rfl
theorem jmp (ra : Byte) : Statement (.jmp ra) := of_row 0x54 2 rfl rfl rfl
theorem jeq (ra : Byte) : Statement (.jeq ra) := of_row 0x55 2 rfl rfl rfl
theorem jne (ra : Byte) : Statement (.jne ra) := of_row 0x56 2 rfl rfl rfl
theorem sub (ra rb : Byte) : Statement (.sub ra rb) := of_row 0xA1 3 rfl rfl rfl
theorem div (ra rb : Byte) : Statement (.div ra rb) := of_row 0xA3 3 rfl rfl rfl
theorem mod (ra rb : Byte) : Statement (.mod ra rb) := of_row 0xA4 3 rfl rfl rfl
theorem and (ra rb : Byte) : Statement (.and ra rb) := of_row 0xA8 3 rfl rfl rfl
theorem or (ra rb : Byte) : Statement (.or ra rb) := of_row 0xAA 3 rfl rfl rfl
theorem xor (ra rb : Byte) : Statement (.xor ra rb) := of_row 0xAB 3 rfl rfl rfl
theorem not (ra : Byte) : Statement (.not ra) := of_row 0x69 2 rfl rfl rfl
theorem shl (ra rb : Byte) : Statement (.shl ra rb) := of_row 0xAC 3 rfl rfl rfl
theorem shr (ra rb : Byte) : Statement (.shr ra rb) := of_row 0xAD 3 rfl rfl rfl

end Sys2Proof.Laws.EncodeLength
end

