-- ==== Sys2Proof/Laws/Raise.lean ====
section
/-! SUPPORT. Laws/Raise.lean: exactly when an instruction halts and with which code, and that it otherwise completes in the same engine state.
`haltCodeOf` is written from the checks of 40_execute_cycle.md R134 and the "Errors" line of each instruction's rule, in the order of
60_exceptions.md R292. -/

namespace Sys2Proof.Machine

/-- The register a legal operand byte names holds this byte. -/
def State.regAt (s : State) (b : Byte) : Byte := if h : b.toNat < 8 then s.reg ⟨b.toNat, h⟩ else 0

/-- The code an instruction with legal register operands halts with, if it halts. -/
def ownHaltCode (i : Instr) (s : State) : Option HaltCode :=
  if i.isExt && !s.cfg.extAlu then some .aluUnsupported
  else
    match i with
    | .hlt => some .haltOk
    | .push _ => if s.reg 7 = 0 then some .spRange else none
    | .pop ra => if (if ra.toNat = 7 then s.memRead (s.reg 7) else s.reg 7) = 255 then some .spRange else none
    | .call _ => if 255 < s.pc.toNat + 2 then some .retAddr else if s.reg 7 = 0 then some .spRange else none
    | .ret => if s.reg 7 = 255 then some .spRange else none
    | .div _ rb => if s.regAt rb = 0 then some .divZero else none
    | .mod _ rb => if s.regAt rb = 0 then some .divZero else none
    | .ldi _ _ | .prn _ | .mul _ _ | .add _ _ | .cmp _ _ | .jmp _ | .jeq _ | .jne _ | .sub _ _ | .and _ _ | .or _ _ | .xor _ _ | .not _
    | .shl _ _ | .shr _ _ => none

/-- The code an instruction halts with, if it halts. -/
def haltCodeOf (i : Instr) (s : State) : Option HaltCode :=
  if i.wellFormed then ownHaltCode i s else some .regIndex

/-- The outcome halts with the code, or, where there is none, completes with the engine state unchanged. -/
def HaltsOrCompletes (c : Option HaltCode) (op : Byte) (s : State) (o : Host.Outcome State Fault Refusal) : Prop :=
  match c with
  | some c => o = .next (s.enterHalted c op)
  | none => ∃ t, o = .next t ∧ t.engine = s.engine

/-- A rule that completes. -/
theorem commit_completes {op : Byte} {s t : State} {rule : Except HaltCode State} (h : rule = .ok t) (k : t.engine = s.engine) :
    HaltsOrCompletes none op s (commit op s rule) := ⟨t, by rw [h]; rfl, k⟩

/-- A rule that raises. -/
theorem commit_raises {op : Byte} {s : State} {c : HaltCode} {rule : Except HaltCode State} (h : rule = .error c) :
    HaltsOrCompletes (some c) op s (commit op s rule) := by rw [h]; rfl

/-- A rule that begins with a register operand halts with ERR_REG_INDEX where it is illegal. -/
theorem commit_withReg {ra op : Byte} {s : State} {own : Option HaltCode} {f : Reg → Except HaltCode State}
    (g : ∀ h : ra.toNat < 8, HaltsOrCompletes own op s (commit op s (f ⟨ra.toNat, h⟩))) :
    HaltsOrCompletes (if ra.toNat < 8 then own else some .regIndex) op s (commit op s (regOperand ra >>= f)) := by
  by_cases h : ra.toNat < 8
  · rw [if_pos h, regOperand_of_lt h]
    exact g h
  · rw [if_neg h, regOperand_of_ge (by omega)]
    rfl

/-- A rule that begins with two register operands halts with ERR_REG_INDEX where either is illegal. -/
theorem commit_withRegs {ra rb op : Byte} {s : State} {own : Option HaltCode} {f : Reg → Reg → Except HaltCode State}
    (g : ∀ (h : ra.toNat < 8) (k : rb.toNat < 8), HaltsOrCompletes own op s (commit op s (f ⟨ra.toNat, h⟩ ⟨rb.toNat, k⟩))) :
    HaltsOrCompletes (if ra.toNat < 8 ∧ rb.toNat < 8 then own else some .regIndex) op s
      (commit op s (do let a ← regOperand ra; let b ← regOperand rb; f a b)) := by
  have h := commit_withReg (ra := ra) (op := op) (s := s) (f := fun a => regOperand rb >>= f a) (fun h => commit_withReg (fun k => g h k))
  by_cases x : ra.toNat < 8 <;> by_cases y : rb.toNat < 8 <;> simpa [x, y] using h

/-- The two-register ALU rule halts only with an unsupported tag or a divisor of 0. -/
theorem aluPair_raises (tag : AluTag) (ra rb op : Byte) (s : State) :
    HaltsOrCompletes
      (if ra.toNat < 8 ∧ rb.toNat < 8 then
        if tag.isExt && !s.cfg.extAlu then some .aluUnsupported
        else if (tag = .div ∨ tag = .mod) ∧ s.regAt rb = 0 then some .divZero else none
       else some .regIndex) op s (commit op s (aluPair tag ra rb s)) := by
  refine commit_withRegs (fun h k => ?_)
  rw [State.regAt, dif_pos k]
  generalize s.reg ⟨rb.toNat, k⟩ = b
  generalize s.reg ⟨ra.toNat, h⟩ = a
  by_cases x : (tag.isExt && !s.cfg.extAlu) = true
  · rw [if_pos x]
    exact commit_raises (by rw [alu, if_pos x]; rfl)
  · rw [if_neg x]
    by_cases z : (tag = .div ∨ tag = .mod) ∧ b = 0
    · rw [if_pos z]
      refine commit_raises ?_
      rw [alu, if_neg x]
      rcases z with ⟨rfl | rfl, rfl⟩ <;> rfl
    · rw [if_neg z]
      obtain ⟨r, e⟩ : ∃ r, alu s.cfg.extAlu tag a b = .ok r := by
        rw [alu, if_neg x]
        cases tag <;> first
          | exact ⟨_, rfl⟩
          | exact ⟨_, if_neg (by simpa using z)⟩
      rw [e]
      exact commit_completes (ok_bind r _) rfl

/-- Exactly when an instruction halts, and with which code. -/
theorem exec_raises (i : Instr) (s : State) : HaltsOrCompletes (haltCodeOf i s) i.opcode s (exec i s) := by
  have one : ∀ ra : Byte, ([ra].all isRegByte = true) = (ra.toNat < 8) := by simp [isRegByte]
  have two : ∀ ra rb : Byte, ([ra, rb].all isRegByte = true) = (ra.toNat < 8 ∧ rb.toNat < 8) := by simp [isRegByte]
  unfold haltCodeOf
  cases i <;> simp only [Instr.wellFormed, Instr.regOperands, one, two]
  case hlt => rfl
  case ldi => exact commit_withReg (fun _ => commit_completes rfl rfl)
  case prn => exact commit_withReg (fun _ => commit_completes rfl rfl)
  case jmp => exact commit_withReg (fun _ => commit_completes rfl rfl)
  case jeq => exact commit_withReg (fun _ => commit_completes rfl (by split <;> rfl))
  case jne => exact commit_withReg (fun _ => commit_completes rfl (by split <;> rfl))
  case cmp =>
    refine commit_withRegs (fun _ _ => ?_)
    rw [alu_base _ rfl]
    exact commit_completes rfl rfl
  case push =>
    refine commit_withReg (fun _ => ?_)
    simp only [ownHaltCode, Instr.isExt, Bool.false_and, Bool.false_eq_true, if_false]
    rcases decSp_cases s with ⟨z, d⟩ | ⟨z, d⟩
    · rw [if_neg z, d]; exact commit_completes rfl rfl
    · rw [if_pos z, d]; exact commit_raises rfl
  case pop ra =>
    refine commit_withReg (fun h => ?_)
    simp only [ownHaltCode, Instr.isExt, Bool.false_and, Bool.false_eq_true, if_false]
    have e : (if ra.toNat = 7 then s.memRead (s.reg 7) else s.reg 7) = (s.setReg ⟨ra.toNat, h⟩ (s.memRead (s.reg 7))).reg 7 := by
      by_cases q : ra.toNat = 7
      · rw [if_pos q, show (⟨ra.toNat, h⟩ : Reg) = 7 from Fin.ext q, State.reg_setReg_same]
      · rw [if_neg q, State.reg_setReg_other _ _ _ _ (fun x => q (congrArg Fin.val x).symm)]
    rw [e, State.sp_eq]
    rcases incSp_cases (s.setReg ⟨ra.toNat, h⟩ (s.memRead (s.reg 7))) with ⟨z, d⟩ | ⟨z, d⟩
    · rw [if_neg z, d]; exact commit_completes rfl rfl
    · rw [if_pos z, d]; exact commit_raises rfl
  case call =>
    refine commit_withReg (fun _ => ?_)
    simp only [ownHaltCode, Instr.isExt, Bool.false_and, Bool.false_eq_true, if_false]
    by_cases y : 255 < s.pc.toNat + 2
    · rw [if_pos y, if_pos y]; exact commit_raises rfl
    · rw [if_neg y, if_neg y]
      rcases decSp_cases s with ⟨z, d⟩ | ⟨z, d⟩
      · rw [if_neg z, d]; exact commit_completes rfl rfl
      · rw [if_pos z, d]; exact commit_raises rfl
  case ret =>
    simp only [List.all_nil, if_true, ownHaltCode, Instr.isExt, Bool.false_and, Bool.false_eq_true, if_false, exec, execRet]
    rcases incSp_cases s with ⟨z, d⟩ | ⟨z, d⟩
    · rw [if_neg z, d]; exact commit_completes rfl rfl
    · rw [if_pos z, d]; exact commit_raises rfl
  case not =>
    refine commit_withReg (fun _ => ?_)
    simp only [ownHaltCode, Instr.isExt, Bool.true_and]
    by_cases x : (!s.cfg.extAlu) = true
    · rw [if_pos x, alu, if_pos (by simpa [AluTag.isExt] using x)]; exact commit_raises rfl
    · rw [if_neg x, alu, if_neg (by simpa [AluTag.isExt] using x)]; exact commit_completes rfl rfl
  case div ra rb => simpa [exec, execDiv, ownHaltCode, Instr.isExt, AluTag.isExt] using aluPair_raises .div ra rb _ s
  case mod ra rb => simpa [exec, execMod, ownHaltCode, Instr.isExt, AluTag.isExt] using aluPair_raises .mod ra rb _ s
  case mul ra rb => simpa [exec, execMul, ownHaltCode, Instr.isExt, AluTag.isExt] using aluPair_raises .mul ra rb _ s
  case add ra rb => simpa [exec, execAdd, ownHaltCode, Instr.isExt, AluTag.isExt] using aluPair_raises .add ra rb _ s
  case sub ra rb => simpa [exec, execSub, ownHaltCode, Instr.isExt, AluTag.isExt] using aluPair_raises .sub ra rb _ s
  case and ra rb => simpa [exec, execAnd, ownHaltCode, Instr.isExt, AluTag.isExt] using aluPair_raises .and ra rb _ s
  case or ra rb => simpa [exec, execOr, ownHaltCode, Instr.isExt, AluTag.isExt] using aluPair_raises .or ra rb _ s
  case xor ra rb => simpa [exec, execXor, ownHaltCode, Instr.isExt, AluTag.isExt] using aluPair_raises .xor ra rb _ s
  case shl ra rb => simpa [exec, execShl, ownHaltCode, Instr.isExt, AluTag.isExt] using aluPair_raises .shl ra rb _ s
  case shr ra rb => simpa [exec, execShr, ownHaltCode, Instr.isExt, AluTag.isExt] using aluPair_raises .shr ra rb _ s

end Sys2Proof.Machine
end

