-- ==== Sys2Proof/Tests/Slice0.lean ====
section
/-! SUPPORT. Tests/Slice0.lean: the model against the spec's own encodings (30_encoding.md R96, R97) and vectors (95_test_vectors.md; the
vector's number stands in each test's comment), and a witness for the hypotheses of every statement that has some. -/

namespace Sys2Proof.Tests

open Sys2Proof.Machine

/-- The block RUNNING at an address with these bytes there, these registers, and all else as at reset. -/
def code (ext : Bool) (a : Nat) (bs : List Byte) (rs : List (Reg × Byte) := []) : State :=
  let s0 : State := { State.resetWith { Config.default with extAlu := ext } with engine := .running, pc := BitVec.ofNat 9 a }
  let s1 := rs.foldl (fun s p => s.setReg p.1 p.2) s0
  (bs.foldl (fun p b => (p.1.memWrite (mod256 p.2) b, p.2 + 1)) (s1, a)).1

/-- The next state meets a check. -/
def after (o : Host.Outcome State Fault Refusal) (p : State → Bool) : Bool :=
  match o with
  | .next t => p t
  | .fault _ => false
  | .refused _ => false

/-- The check "halt(c, p)" of the vectors, with halt_op. -/
def halted (c : BitVec 4) (p : PcWord) (op : Byte) (t : State) : Bool :=
  t.engine == .halted && t.haltCode == c && t.haltPc == p && t.haltOp == op && t.pc == p

/-- The instruction the bytes decode to. -/
def decoded (ext : Bool) (bs : List Byte) : Option Instr := (decodeBytes ext bs).toOption

/-- The hypotheses of `StepRuns`. -/
abbrev RunsHyp (s : State) (bs : List Byte) : Prop := s.runs ∧ s.codeIs bs

/-- The hypotheses of `StepCutOff`. -/
abbrev CutHyp (s : State) (op : Byte) (len : Nat) : Prop := s.runs ∧ s.codeIs [op] ∧ 256 < s.pc.toNat + len

/-! ## Well-formedness: every check refuses an ill-formed term (R92, R134) -/

theorem test_illFormed_refused :
    Instr.wellFormed (.ldi 8 0) = false ∧
    Instr.wellFormed (.prn 8) = false ∧
    Instr.wellFormed (.mul 8 0) = false ∧ Instr.wellFormed (.mul 7 8) = false ∧
    Instr.wellFormed (.add 8 0) = false ∧ Instr.wellFormed (.add 7 8) = false ∧
    Instr.wellFormed (.push 8) = false ∧
    Instr.wellFormed (.pop 8) = false ∧
    Instr.wellFormed (.call 8) = false ∧
    Instr.wellFormed (.cmp 8 0) = false ∧ Instr.wellFormed (.cmp 7 8) = false ∧
    Instr.wellFormed (.jmp 8) = false ∧
    Instr.wellFormed (.jeq 8) = false ∧
    Instr.wellFormed (.jne 8) = false ∧
    Instr.wellFormed (.sub 8 0) = false ∧ Instr.wellFormed (.sub 7 8) = false ∧
    Instr.wellFormed (.div 8 0) = false ∧ Instr.wellFormed (.div 7 8) = false ∧
    Instr.wellFormed (.mod 8 0) = false ∧ Instr.wellFormed (.mod 7 8) = false ∧
    Instr.wellFormed (.and 8 0) = false ∧ Instr.wellFormed (.and 7 8) = false ∧
    Instr.wellFormed (.or 8 0) = false ∧ Instr.wellFormed (.or 7 8) = false ∧
    Instr.wellFormed (.xor 8 0) = false ∧ Instr.wellFormed (.xor 7 8) = false ∧
    Instr.wellFormed (.not 8) = false ∧
    Instr.wellFormed (.shl 8 0) = false ∧ Instr.wellFormed (.shl 7 8) = false ∧
    Instr.wellFormed (.shr 8 0) = false ∧ Instr.wellFormed (.shr 7 8) = false := by decide

theorem test_immediate_unchecked : Instr.wellFormed (.ldi 7 255) = true := by decide

/-- The check of a step refuses the same terms: the offending byte halts the block (V6, V136). -/
theorem test_illFormed_halts :
    after (step (code false 0 [0x82, 0x08, 0x01])) (halted 2 0 0x82) = true ∧
    after (step (code false 0 [0xA0, 0x00, 0x09])) (halted 2 0 0xA0) = true := by decide

/-! ## Decoding: each constructor from a word written out from the opcode tables (R90, R96, R97) -/

theorem test_decode_hlt : decoded false [0b00000001] = some (.hlt) := by decide

theorem test_decode_ldi : decoded false [0b10000010, 0b00000001, 0b10100101] = some (.ldi 1 165) := by decide

theorem test_decode_prn : decoded false [0b01000111, 0b00000010] = some (.prn 2) := by decide

theorem test_decode_mul : decoded false [0b10100010, 0b00000011, 0b00000010] = some (.mul 3 2) := by decide

theorem test_decode_add : decoded false [0b10100000, 0b00000100, 0b00000101] = some (.add 4 5) := by decide

theorem test_decode_push : decoded false [0b01000101, 0b00000101] = some (.push 5) := by decide

theorem test_decode_pop : decoded false [0b01000110, 0b00000110] = some (.pop 6) := by decide

theorem test_decode_call : decoded false [0b01010000, 0b00000111] = some (.call 7) := by decide

theorem test_decode_ret : decoded false [0b00010001] = some (.ret) := by decide

theorem test_decode_cmp : decoded false [0b10100111, 0b00000001, 0b00000100] = some (.cmp 1 4) := by decide

theorem test_decode_jmp : decoded false [0b01010100, 0b00000010] = some (.jmp 2) := by decide

theorem test_decode_jeq : decoded false [0b01010101, 0b00000011] = some (.jeq 3) := by decide

theorem test_decode_jne : decoded false [0b01010110, 0b00000100] = some (.jne 4) := by decide

theorem test_decode_sub :
    decoded true [0b10100001, 0b00000101, 0b00000000] = some (.sub 5 0) ∧ decoded false [0b10100001, 0b00000101, 0b00000000] = none := by decide

theorem test_decode_div :
    decoded true [0b10100011, 0b00000110, 0b00000011] = some (.div 6 3) ∧ decoded false [0b10100011, 0b00000110, 0b00000011] = none := by decide

theorem test_decode_mod :
    decoded true [0b10100100, 0b00000111, 0b00000110] = some (.mod 7 6) ∧ decoded false [0b10100100, 0b00000111, 0b00000110] = none := by decide

theorem test_decode_and :
    decoded true [0b10101000, 0b00000000, 0b00000001] = some (.and 0 1) ∧ decoded false [0b10101000, 0b00000000, 0b00000001] = none := by decide

theorem test_decode_or :
    decoded true [0b10101010, 0b00000001, 0b00000100] = some (.or 1 4) ∧ decoded false [0b10101010, 0b00000001, 0b00000100] = none := by decide

theorem test_decode_xor :
    decoded true [0b10101011, 0b00000010, 0b00000111] = some (.xor 2 7) ∧ decoded false [0b10101011, 0b00000010, 0b00000111] = none := by decide

theorem test_decode_not :
    decoded true [0b01101001, 0b00000011] = some (.not 3) ∧ decoded false [0b01101001, 0b00000011] = none := by decide

theorem test_decode_shl :
    decoded true [0b10101100, 0b00000100, 0b00000101] = some (.shl 4 5) ∧ decoded false [0b10101100, 0b00000100, 0b00000101] = none := by decide

theorem test_decode_shr :
    decoded true [0b10101101, 0b00000101, 0b00000000] = some (.shr 5 0) ∧ decoded false [0b10101101, 0b00000101, 0b00000000] = none := by decide

/-- V130 to V133: opcodes of the public LS-8 that the spec does not adopt, and 0x00, are unknown under either setting. -/
theorem test_decode_unknown :
    decoded true [0x00, 0, 0] = none ∧ decoded true [0xFF, 0, 0] = none ∧ decoded true [0x83, 0, 1] = none ∧
    decoded true [0x13, 0, 0] = none := by decide

/-- A table word is read with its first byte in bits 7:0 (LDI R2,123: W1). -/
theorem test_tableWord : decodeTableWord 24 0x7B0282 = some (.ldi 2 123) ∧ decodeTableWord 8 0x82 = some (.ldi 0 0) := by decide

/-- A table word runs as the first instruction after reset, an extension word too. -/
theorem test_fetchWord :
    after (step (State.reset.withFetchWord 24 0x7B0282)) (fun t => t.reg 2 == 123 && t.pc == 3 && t.engine == .running) = true ∧
    after (step (State.reset.withFetchWord 16 0x0369)) (fun t => t.reg 3 == 255 && t.pc == 2) = true := by decide

/-! ## One step per instruction, against the vectors -/

/-- V1, V2: HLT at 0 and at 255. -/
theorem test_hlt :
    after (step (code false 0 [0x01])) (halted 0 0 0x01) = true ∧
    after (step (code false 255 [0x01])) (halted 0 255 0x01) = true := by decide

/-- V8, V9: LDI at 253 ends at 256; at 254 its operand is past the end. -/
theorem test_ldi :
    after (step (code false 253 [0x82, 0x01, 0x07])) (fun t => t.reg 1 == 7 && t.pc == 256) = true ∧
    after (step (code false 254 [0x82, 0x09])) (halted 3 254 0x82) = true := by decide

/-- V5: LDI R6 sets FL. -/
theorem test_ldi_flags :
    after (step (code false 0 [0x82, 0x06, 0x03])) (fun t => t.fl == 3 && t.equalFlag) = true := by decide

/-- V12, V15: PRN R7 emits 244; an illegal register emits nothing. -/
theorem test_prn :
    after (step (code false 0 [0x47, 0x07])) (fun t => t.out == [244] && t.outPort == some 244 && t.pc == 2) = true ∧
    after (step (code false 0 [0x47, 0x08])) (fun t => halted 2 0 0x47 t && t.out == []) = true := by decide

/-- V22, V26: ADD wraps and writes no flag. -/
theorem test_add :
    after (step (code false 0 [0xA0, 0x00, 0x01] [(0, 200), (1, 100)])) (fun t => t.reg 0 == 44 && t.reg 1 == 100 && t.pc == 3) = true ∧
    after (step (code false 0 [0xA0, 0x00, 0x01] [(6, 4), (0, 1), (1, 1)])) (fun t => t.reg 0 == 2 && t.fl == 4) = true := by decide

/-- V31, V33: MUL keeps the low 8 bits. -/
theorem test_mul :
    after (step (code false 0 [0xA2, 0x00, 0x01] [(0, 255), (1, 255)])) (fun t => t.reg 0 == 1) = true ∧
    after (step (code false 0 [0xA2, 0x00, 0x01] [(0, 20), (1, 13)])) (fun t => t.reg 0 == 4) = true := by decide

/-- V45, V43: CMP is unsigned. -/
theorem test_cmp :
    after (step (code false 0 [0xA7, 0x00, 0x01] [(0, 128), (1, 127)])) (fun t => t.fl == 2) = true ∧
    after (step (code false 0 [0xA7, 0x00, 0x01] [(0, 0), (1, 255)])) (fun t => t.fl == 4) = true := by decide

/-- V47, V49: CMP compares the old FL, and writes it in full. -/
theorem test_cmp_old :
    after (step (code false 0 [0xA7, 0x06, 0x00] [(6, 4), (0, 4)])) (fun t => t.fl == 1) = true ∧
    after (step (code false 0 [0xA7, 0x00, 0x01] [(6, 255), (0, 7), (1, 7)])) (fun t => t.fl == 1) = true := by decide

/-- V51, V71: SUB borrows; without EXT_ALU its opcode is unknown. -/
theorem test_sub :
    after (step (code true 0 [0xA1, 0x00, 0x01] [(0, 3), (1, 5)])) (fun t => t.reg 0 == 254 && t.pc == 3) = true ∧
    after (step (code false 0 [0xA1, 0x00, 0x01] [(0, 5), (1, 3)])) (halted 1 0 0xA1) = true := by decide

/-- V53, V55. -/
theorem test_div :
    after (step (code true 0 [0xA3, 0x00, 0x01] [(0, 200), (1, 7)])) (fun t => t.reg 0 == 28) = true ∧
    after (step (code true 0 [0xA3, 0x00, 0x01] [(0, 9)])) (fun t => halted 7 0 0xA3 t && t.reg 0 == 9) = true := by decide

/-- V56, V57. -/
theorem test_mod :
    after (step (code true 0 [0xA4, 0x00, 0x01] [(0, 200), (1, 7)])) (fun t => t.reg 0 == 4) = true ∧
    after (step (code true 0 [0xA4, 0x00, 0x01] [(0, 5)])) (halted 7 0 0xA4) = true := by decide

/-- V58. -/
theorem test_and :
    after (step (code true 0 [0xA8, 0x00, 0x01] [(0, 0xCC), (1, 0xAA)])) (fun t => t.reg 0 == 0x88) = true := by decide

/-- V59. -/
theorem test_or :
    after (step (code true 0 [0xAA, 0x00, 0x01] [(0, 0xCC), (1, 0xAA)])) (fun t => t.reg 0 == 0xEE) = true := by decide

/-- V60, V61. -/
theorem test_xor :
    after (step (code true 0 [0xAB, 0x00, 0x01] [(0, 0xCC), (1, 0xAA)])) (fun t => t.reg 0 == 0x66) = true ∧
    after (step (code true 0 [0xAB, 0x00, 0x00] [(0, 0x37)])) (fun t => t.reg 0 == 0) = true := by decide

/-- V63. -/
theorem test_not :
    after (step (code true 0 [0x69, 0x00] [(0, 0x0F)])) (fun t => t.reg 0 == 0xF0 && t.pc == 2) = true := by decide

/-- V64, V66. -/
theorem test_shl :
    after (step (code true 0 [0xAC, 0x00, 0x01] [(0, 0x81), (1, 1)])) (fun t => t.reg 0 == 2) = true ∧
    after (step (code true 0 [0xAC, 0x00, 0x01] [(0, 1), (1, 8)])) (fun t => t.reg 0 == 0) = true := by decide

/-- V68, V70. -/
theorem test_shr :
    after (step (code true 0 [0xAD, 0x00, 0x01] [(0, 0x81), (1, 1)])) (fun t => t.reg 0 == 0x40) = true ∧
    after (step (code true 0 [0xAD, 0x00, 0x01] [(0, 255), (1, 8)])) (fun t => t.reg 0 == 0) = true := by decide

/-- V81, V86: PUSH R7 stores the decremented SP; SP = 0 halts. -/
theorem test_push :
    after (step (code false 0 [0x45, 0x07])) (fun t => t.sp == 0xF3 && t.memRead 0xF3 == 0xF3 && t.pc == 2) = true ∧
    after (step (code false 0 [0x45, 0x00] [(7, 0)])) (fun t => halted 4 0 0x45 t && t.sp == 0) = true := by decide

/-- V91: a PUSH over its own operand byte uses the latched operand. -/
theorem test_push_latched :
    after (step (code false 6 [0x45, 0x00] [(7, 8), (0, 0x47)])) (fun t => t.memRead 7 == 0x47 && t.sp == 7) = true := by decide

/-- V83, V87: POP R7 leaves the popped byte plus 1; SP = 255 halts and discards the write. -/
theorem test_pop :
    after (step ((code false 0 [0x46, 0x07] [(7, 0xF0)]).memWrite 0xF0 0x10)) (fun t => t.sp == 0x11) = true ∧
    after (step (code false 0 [0x46, 0x00] [(7, 255), (0, 3)])) (fun t => halted 4 0 0x46 t && t.reg 0 == 3 && t.sp == 255) = true := by decide

/-- V88: POP R7 of 255 halts. -/
theorem test_pop_seven :
    after (step ((code false 0 [0x46, 0x07] [(7, 0x80)]).memWrite 0x80 0xFF)) (fun t => halted 4 0 0x46 t && t.sp == 0x80) = true := by decide

/-- V111, V112. -/
theorem test_call :
    after (step (code false 6 [0x50, 0x01] [(1, 11)])) (fun t => t.memRead 0xF3 == 8 && t.sp == 0xF3 && t.pc == 11) = true ∧
    after (step (code false 0 [0x50, 0x07])) (fun t => t.memRead 0xF3 == 2 && t.pc == 0xF3) = true := by decide

/-- V114, V115: ERR_RET_ADDR comes before ERR_SP_RANGE. -/
theorem test_call_halts :
    after (step (code false 10 [0x50, 0x00] [(7, 0)])) (halted 4 10 0x50) = true ∧
    after (step (code false 254 [0x50, 0x00] [(7, 0)])) (halted 5 254 0x50) = true := by decide

/-- V119, V118. -/
theorem test_ret :
    after (step ((code false 255 [0x11] [(7, 0xF3)]).memWrite 0xF3 4)) (fun t => t.pc == 4 && t.sp == 0xF4) = true ∧
    after (step (code false 0 [0x11] [(7, 255)])) (fun t => halted 4 0 0x11 t && t.sp == 255) = true := by decide

/-- V100. -/
theorem test_jmp :
    after (step (code false 0 [0x54, 0x03] [(3, 12)])) (fun t => t.pc == 12) = true := by decide

/-- V104, V110: only bit 0 of FL counts; not taken at 254 leaves 256. -/
theorem test_jeq :
    after (step (code false 10 [0x55, 0x02] [(6, 3), (2, 30)])) (fun t => t.pc == 30) = true ∧
    after (step (code false 254 [0x55, 0x02])) (fun t => t.pc == 256 && t.engine == .running) = true := by decide

/-- V105, V106: G alone does not take it, and its operand is checked though not taken. -/
theorem test_jeq_checked :
    after (step (code false 10 [0x55, 0x02] [(6, 2), (2, 30)])) (fun t => t.pc == 12) = true ∧
    after (step (code false 0 [0x55, 0x09])) (halted 2 0 0x55) = true := by decide

/-- V107, V109. -/
theorem test_jne :
    after (step (code false 10 [0x56, 0x02] [(2, 30)])) (fun t => t.pc == 30) = true ∧
    after (step (code false 10 [0x56, 0x02] [(6, 5), (2, 30)])) (fun t => t.pc == 12) = true := by decide

/-- V134, V135. -/
theorem test_fetch_faults :
    after (step { code false 0 [] with pc := 256 }) (halted 3 256 0) = true ∧
    after (step (code false 255 [0xA0])) (halted 3 255 0xA0) = true := by decide

/-! ## The boundary (R30, R40, R41) -/

/-- The host reads memory in HALTED and not in RUNNING, and sees the state's encoding. -/
theorem test_outputs :
    ((code false 0 [0x01]).outputs.dbgData = none ∧ (code false 0 [0x01]).outputs.statusState = 1) ∧
    after (step (code false 0 [0x01])) (fun t => t.outputs.dbgData == some 1 && t.outputs.statusState == 2) = true := by decide

/-- A host write in READY lands; one in RUNNING is ignored. -/
theorem test_load :
    after (step (State.reset.drive (.load 9 7))) (fun t => t.memRead 9 == 7 && t.engine == .ready) = true ∧
    after (step ((code false 0 [0x54, 0x00]).drive (.load 9 7))) (fun t => t.memRead 9 == 0) = true := by decide

/-! ## Witnesses: states that meet the hypotheses of each statement, at the boundary values of its clauses -/

theorem witness_HltHaltsNormallyAndForGood :
    RunsHyp (code false 255 [0x01]) [0x01] ∧ Inputs.start.rst = false ∧ ∃ t, exec .hlt (code false 255 [0x01]) = .next t :=
  ⟨by decide, rfl, _, rfl⟩

theorem witness_LdiWritesImmediate :
    8 ≤ (8 : Byte).toNat ∧
    RunsHyp (code false 253 [0x82, 0x07, 0xFF]) [0x82, 0x07, 0xFF] ∧
    CutHyp (code false 254 [0x82]) 0x82 3 := by decide

theorem witness_PrnEmitsRegister :
    8 ≤ (8 : Byte).toNat ∧
    RunsHyp (code false 254 [0x47, 0x07]) [0x47, 0x07] ∧
    CutHyp (code false 255 [0x47]) 0x47 2 := by decide

theorem witness_AddWrapsModulo256 :
    8 ≤ (8 : Byte).toNat ∧
    RunsHyp (code false 253 [0xA0, 0x07, 0x07]) [0xA0, 0x07, 0x07] ∧
    CutHyp (code false 254 [0xA0]) 0xA0 3 := by decide

theorem witness_MulWrapsModulo256 :
    8 ≤ (8 : Byte).toNat ∧
    RunsHyp (code false 253 [0xA2, 0x07, 0x07]) [0xA2, 0x07, 0x07] ∧
    CutHyp (code false 254 [0xA2]) 0xA2 3 := by decide

theorem witness_CmpWritesFlagsByte :
    8 ≤ (8 : Byte).toNat ∧
    RunsHyp (code false 253 [0xA7, 0x07, 0x07]) [0xA7, 0x07, 0x07] ∧
    CutHyp (code false 254 [0xA7]) 0xA7 3 := by decide

theorem witness_SubWrapsModulo256 :
    8 ≤ (255 : Byte).toNat ∧
    (code true 253 [0xA1]).cfg.extAlu = true ∧
    RunsHyp (code true 253 [0xA1, 0x07, 0x07]) [0xA1, 0x07, 0x07] ∧
    CutHyp (code true 254 [0xA1]) 0xA1 3 ∧
    (code false 255 [0xA1]).cfg.extAlu = false ∧
    RunsHyp (code false 255 [0xA1]) [0xA1] := by decide

theorem witness_DivIsFloorOrHaltsOnZero :
    8 ≤ (255 : Byte).toNat ∧
    (code true 253 [0xA3]).cfg.extAlu = true ∧
    RunsHyp (code true 253 [0xA3, 0x07, 0x07]) [0xA3, 0x07, 0x07] ∧
    CutHyp (code true 254 [0xA3]) 0xA3 3 ∧
    (code false 255 [0xA3]).cfg.extAlu = false ∧
    RunsHyp (code false 255 [0xA3]) [0xA3] ∧
    (code true 0 [] [(0, 9)]).regs[(1 : Reg)] = 0 ∧
    (code true 0 [] [(0, 9)]).regs[(0 : Reg)] ≠ 0 := by decide

theorem witness_ModIsRemainderOrHaltsOnZero :
    8 ≤ (255 : Byte).toNat ∧
    (code true 253 [0xA4]).cfg.extAlu = true ∧
    RunsHyp (code true 253 [0xA4, 0x07, 0x07]) [0xA4, 0x07, 0x07] ∧
    CutHyp (code true 254 [0xA4]) 0xA4 3 ∧
    (code false 255 [0xA4]).cfg.extAlu = false ∧
    RunsHyp (code false 255 [0xA4]) [0xA4] ∧
    (code true 0 [] [(0, 9)]).regs[(1 : Reg)] = 0 ∧
    (code true 0 [] [(0, 9)]).regs[(0 : Reg)] ≠ 0 := by decide

theorem witness_AndOrXorAreBitwise :
    8 ≤ (8 : Byte).toNat ∧
    RunsHyp (code true 253 [0xA8, 0x07, 0x07]) [0xA8, 0x07, 0x07] ∧
    RunsHyp (code true 253 [0xAA, 0x07, 0x07]) [0xAA, 0x07, 0x07] ∧
    RunsHyp (code true 253 [0xAB, 0x07, 0x07]) [0xAB, 0x07, 0x07] ∧
    CutHyp (code true 254 [0xA8]) 0xA8 3 ∧
    CutHyp (code true 254 [0xAA]) 0xAA 3 ∧
    CutHyp (code true 254 [0xAB]) 0xAB 3 ∧
    RunsHyp (code false 255 [0xA8]) [0xA8] ∧
    RunsHyp (code false 255 [0xAA]) [0xAA] ∧
    RunsHyp (code false 255 [0xAB]) [0xAB] := by decide

theorem witness_NotComplementsRegister :
    8 ≤ (255 : Byte).toNat ∧
    (code true 254 [0x69]).cfg.extAlu = true ∧
    RunsHyp (code true 254 [0x69, 0x07]) [0x69, 0x07] ∧
    CutHyp (code true 255 [0x69]) 0x69 2 ∧
    (code false 255 [0x69]).cfg.extAlu = false ∧
    RunsHyp (code false 255 [0x69]) [0x69] := by decide

theorem witness_ShlUsesWholeCount :
    8 ≤ (255 : Byte).toNat ∧
    (code true 253 [0xAC]).cfg.extAlu = true ∧
    RunsHyp (code true 253 [0xAC, 0x07, 0x07]) [0xAC, 0x07, 0x07] ∧
    CutHyp (code true 254 [0xAC]) 0xAC 3 ∧
    (code false 255 [0xAC]).cfg.extAlu = false ∧
    RunsHyp (code false 255 [0xAC]) [0xAC] := by decide

theorem witness_ShrUsesWholeCount :
    8 ≤ (255 : Byte).toNat ∧
    (code true 253 [0xAD]).cfg.extAlu = true ∧
    RunsHyp (code true 253 [0xAD, 0x07, 0x07]) [0xAD, 0x07, 0x07] ∧
    CutHyp (code true 254 [0xAD]) 0xAD 3 ∧
    (code false 255 [0xAD]).cfg.extAlu = false ∧
    RunsHyp (code false 255 [0xAD]) [0xAD] := by decide

/-- A divisor of 0 and of the largest byte, and the shift counts 7 and 8 around the clause on 8 or more. -/
theorem witness_AluFollowsIntegerLaws :
    ((0 : Byte) = 0 ∧ (255 : Byte) ≠ 0 ∧ 8 ≤ (8 : Byte).toNat ∧ ¬ 8 ≤ (7 : Byte).toNat) ∧
    (alu true .div 255 0 = .error .divZero ∧ alu true .div 255 255 = .ok 1 ∧ alu true .mod 255 255 = .ok 0) ∧
    (alu true .shl 1 7 = .ok 128 ∧ alu true .shl 1 8 = .ok 0 ∧ alu true .shr 128 7 = .ok 1 ∧ alu true .shr 255 8 = .ok 0) :=
  ⟨by decide, ⟨rfl, rfl, rfl⟩, ⟨rfl, rfl, rfl, rfl⟩⟩

theorem witness_PushDecrementsThenStores :
    8 ≤ (8 : Byte).toNat ∧
    RunsHyp (code false 254 [0x45, 0x07]) [0x45, 0x07] ∧
    CutHyp (code false 255 [0x45]) 0x45 2 ∧
    (code false 0 [] [(7, 0)]).regs[7] = 0 ∧
    (code false 0 [] [(7, 1)]).regs[7] ≠ 0 := by decide

theorem witness_PopLoadsThenIncrements :
    8 ≤ (8 : Byte).toNat ∧ RunsHyp (code false 254 [0x46, 0x07]) [0x46, 0x07] ∧ CutHyp (code false 255 [0x46]) 0x46 2 ∧
    (let s := code false 0 [] [(7, 255)]; (s.regs.set (0 : Reg) (Memory.read s.mem s.regs[7]))[7] = 255) ∧
    (let s := code false 255 [0xFF] [(7, 255)]; (s.regs.set (7 : Reg) (Memory.read s.mem s.regs[7]))[7] = 255) ∧
    (let s := code false 255 [0xFE] [(7, 255)]; (s.regs.set (7 : Reg) (Memory.read s.mem s.regs[7]))[7] ≠ 255) ∧
    (let s := code false 0 [] [(7, 254)]; (s.regs.set (0 : Reg) (Memory.read s.mem s.regs[7]))[7] ≠ 255) := by decide

theorem witness_PushThenPopRestores :
    Memory.wf (code false 0 [0x45] [(7, 1)]).mem = true ∧
    (code false 0 [0x45] [(7, 1)]).regs[7] ≠ 0 := by decide

theorem witness_CallPushesReturnAddress :
    8 ≤ (8 : Byte).toNat ∧
    RunsHyp (code false 254 [0x50, 0x07]) [0x50, 0x07] ∧
    CutHyp (code false 255 [0x50]) 0x50 2 ∧
    255 < (code false 254 []).pc.toNat + 2 ∧
    (code false 253 [] [(7, 0)]).pc.toNat + 2 ≤ 255 ∧
    (code false 253 [] [(7, 0)]).regs[7] = 0 ∧
    (code false 253 [] [(7, 1)]).regs[7] ≠ 0 := by decide

theorem witness_RetPopsTarget :
    RunsHyp (code false 255 [0x11]) [0x11] ∧
    (code false 0 [] [(7, 255)]).regs[7] = 255 ∧
    (code false 0 [] [(7, 254)]).regs[7] ≠ 255 := by decide

theorem witness_RetUndoesCall :
    (Memory.wf (code false 253 [] [(7, 1)]).mem = true ∧ (code false 253 [] [(7, 1)]).pc.toNat ≤ 253 ∧
      (code false 253 [] [(7, 1)]).regs[7] ≠ 0) ∧
    after (exec (.call 3) (code false 253 [] [(7, 1)])) (fun t => t.regs[7] == (code false 253 [] [(7, 1)]).regs[7] - 1) = true := by
  decide

theorem witness_JmpSetsPc :
    8 ≤ (8 : Byte).toNat ∧
    RunsHyp (code false 254 [0x54, 0x07]) [0x54, 0x07] ∧
    CutHyp (code false 255 [0x54]) 0x54 2 := by decide

theorem witness_JeqTestsEqualBit :
    8 ≤ (8 : Byte).toNat ∧
    RunsHyp (code false 254 [0x55, 0x07]) [0x55, 0x07] ∧
    CutHyp (code false 255 [0x55]) 0x55 2 := by decide

theorem witness_JneTestsEqualBitClear :
    8 ≤ (8 : Byte).toNat ∧
    RunsHyp (code false 254 [0x56, 0x07]) [0x56, 0x07] ∧
    CutHyp (code false 255 [0x56]) 0x56 2 := by decide

theorem witness_SelfJumpNeverHalts :
    RunsHyp (code false 20 [0x54, 0x00] [(0, 20)]) [0x54, regByte 0] ∧
    (code false 20 [0x54, 0x00] [(0, 20)]).regs[(0 : Reg)].setWidth 9 = (code false 20 [0x54, 0x00] [(0, 20)]).pc := by decide

theorem witness_DecodeOfEncodeIsIdentity : ∃ (i : Instr) (ext : Bool), i.isExt = true ∧ (i.isExt = true → ext = true) :=
  ⟨.sub 255 8, true, rfl, fun _ => rfl⟩

theorem witness_EncodingIsUnique : decodeBytes false [0x82, 0x07, 0xFF, 0x00] = .ok (.ldi 7 255) := rfl

theorem witness_StepRunsDecodedInstruction :
    (code true 253 [0xAD, 0x07, 0x07]).runs ∧ (code true 253 [0xAD, 0x07, 0x07]).codeIs (encode (.shr 7 7)) ∧
    (Instr.shr 7 7).wellFormed = true ∧ (code true 253 [0xAD, 0x07, 0x07]).cfg.extAlu = true := by decide

/-- Each clause on a state after which the block is HALTED, or not (`exec_next` gives the next state). -/
theorem witness_PcAtEndOfInstruction :
    (∃ t, (code false 255 [0x01]).runs ∧ step (code false 255 [0x01]) = .next t ∧ t.engine = .halted) ∧
    ((code false 0 []).engine = .running ∧ ∃ t, exec .hlt (code false 0 []) = .next t ∧ t.engine = .halted) ∧
    (∀ i ∈ [Instr.jmp 7, .call 7, .ret, .jeq 7, .jne 7, .prn 7, .push 7, .pop 7, .ldi 7 0, .add 7 7, .mul 7 7, .cmp 7 7],
      after (exec i (code false 253 [])) (fun t => t.engine == .running) = true) ∧
    (∀ i ∈ [Instr.not 7, .sub 7 7, .div 7 7, .mod 7 7, .and 7 7, .or 7 7, .xor 7 7, .shl 7 7, .shr 7 7],
      after (exec i (code true 253 [])) (fun t => t.engine == .running) = true) :=
  ⟨⟨_, by decide, rfl, rfl⟩, ⟨rfl, _, rfl, rfl⟩, by decide, by decide⟩

/-- The clauses at PC 253 and 254, where the next PC is 256. -/
theorem witness_PcAdvanceNeverWraps :
    (let s := code false 253 [0x82, 0x07, 0x07]
     s.runs ∧ s.byteAt 0 ∉ redirectOpcodes ∧ after (step s) (fun t => t.engine == .running && t.pc.toNat == 256) = true) ∧
    (let s := code false 254 [0x55, 0x07]
     s.runs ∧ (s.byteAt 0 = 0x55 ∧ s.regs[6].getLsbD 0 = false) ∧ after (step s) (fun t => t.engine == .running) = true) ∧
    (let s := code false 254 [0x56, 0x07] [(6, 1)]
     s.runs ∧ (s.byteAt 0 = 0x56 ∧ s.regs[6].getLsbD 0 = true) ∧ after (step s) (fun t => t.engine == .running) = true) := by decide

theorem witness_UnknownOpcodeHalts :
    (code false 255 [0xA1]).runs ∧ (code false 255 [0xA1]).pc.toNat ≤ 255 ∧
    (code false 255 [0xA1]).byteAt 0 ∉ definedOpcodes (code false 255 [0xA1]).cfg.extAlu ∧
    (code true 255 []).byteAt 0 ∉ definedOpcodes (code true 255 []).cfg.extAlu := by decide

/-- Each clause of the cause at its last address, and the halt it describes. -/
theorem witness_RegisterIndexHalts :
    (code false 254 [0x47, 0x08]).runs ∧
    after (step (code false 254 [0x47, 0x08])) (halted 2 254 0x47) = true ∧
    after (step (code false 253 [0xA0, 0x08, 0x00])) (halted 2 253 0xA0) = true ∧
    after (step (code false 253 [0xA0, 0x07, 0x08])) (halted 2 253 0xA0) = true ∧
    after (step (code false 253 [0x82, 0xFF, 0x00])) (halted 2 253 0x82) = true := by decide

theorem witness_MemoryAddressHalts :
    (code false 256 []).runs ∧ after (step (code false 256 [])) (halted 3 256 0) = true ∧
    after (step (code true 255 [0x69])) (halted 3 255 0x69) = true ∧
    after (step (code false 254 [0xA0, 0x09])) (halted 3 254 0xA0) = true ∧
    after (step (code false 254 [0x82, 0x09])) (halted 3 254 0x82) = true ∧
    after (step (code false 253 [0x82, 0x07])) (fun t => t.engine == .running) = true := by decide

theorem witness_StackPointerRangeHalts :
    (code false 254 [0x45, 0x07] [(7, 0)]).runs ∧
    after (step (code false 254 [0x45, 0x07] [(7, 0)])) (halted 4 254 0x45) = true ∧
    after (step (code false 253 [0x50, 0x07] [(7, 0)])) (halted 4 253 0x50) = true ∧
    after (step (code false 253 [0x46, 0x06] [(7, 255)])) (halted 4 253 0x46) = true ∧
    after (step (code false 253 [0x46, 0x07, 0xFF] [(7, 255)])) (halted 4 253 0x46) = true ∧
    after (step (code false 253 [0x46, 0x07, 0xFE] [(7, 255)])) (fun t => t.engine == .running) = true ∧
    after (step (code false 255 [0x11] [(7, 255)])) (halted 4 255 0x11) = true := by decide

theorem witness_ReturnAddressHalts :
    (code false 254 [0x50, 0x07]).runs ∧ after (step (code false 254 [0x50, 0x07])) (halted 5 254 0x50) = true ∧
    after (step (code false 253 [0x50, 0x07])) (fun t => t.engine == .running) = true := by decide

theorem witness_UnsupportedTagUnreachable :
    (code false 0 []).runs ∧ (Instr.not 7).isExt = true ∧ (Instr.not 7).wellFormed = true ∧ (code false 0 []).cfg.extAlu = false := by
  decide

theorem witness_DivideByZeroHalts :
    (code true 253 [0xA3, 0x00, 0x05]).runs ∧ after (step (code true 253 [0xA3, 0x00, 0x05])) (halted 7 253 0xA3) = true ∧
    after (step (code true 253 [0xA4, 0x07, 0x06])) (halted 7 253 0xA4) = true := by decide

theorem witness_HaltEntryIsPrecise :
    ∃ t, (code false 256 []).runs ∧ step (code false 256 []) = .next t ∧ t.engine = .halted := ⟨_, by decide, rfl, rfl⟩

/-- One state for each clause: reset, READY with and without `run`, RUNNING, HALTED. -/
theorem witness_EngineTransitions :
    ((code false 0 []).drive { Inputs.idle with rst := true }).inputs.rst = true ∧
    ((State.reset.drive .start).engine = .ready ∧ (State.reset.drive .start).inputs.rst = false) ∧
    (State.reset.engine = .ready ∧ State.reset.inputs.rst = false) ∧
    ((code false 0 []).engine = .running ∧ (code false 0 []).inputs.rst = false) ∧
    (let s : State := { code false 0 [] with engine := .halted }; s.engine = .halted ∧ s.inputs.rst = false) := by decide

theorem witness_RegisterFrame :
    (∃ t, exec (.push 7) (code false 0 []) = .next t ∧ ¬ mayWriteReg (.push 7) 6) ∧
    (∃ t, (code false 0 []).engine ≠ .halted ∧ exec (.push 8) (code false 0 []) = .next t ∧ t.engine = .halted) :=
  ⟨⟨_, rfl, by unfold mayWriteReg; decide⟩, ⟨_, by decide, rfl, rfl⟩⟩

theorem witness_MemoryFrame :
    ∃ t, exec (.push 7) (code false 0 []) = .next t ∧ storeAddress (.push 7) (code false 0 []) ≠ some 0xF4 ∧
      storeAddress (.push 7) (code false 0 []) = some 0xF3 := ⟨_, rfl, by decide, by decide⟩

theorem witness_OtherStateFrame :
    (∃ t, exec (.push 8) (code false 0 []) = .next t) ∧ (∃ t, exec (.push 7) (code false 0 []) = .next t) ∧
    ∀ ra, Instr.push 7 ≠ .prn ra := ⟨⟨_, rfl⟩, ⟨_, rfl⟩, by simp⟩

theorem witness_MemoryWriteSetsOneCell : Memory.wf (code false 255 [0x01]).mem = true := by decide

/-- A change by each of the three ways: reset, a host load, a PUSH. -/
theorem witness_MemoryChangesOnlyByStores :
    after (step ((code false 9 [0x01]).drive { Inputs.idle with rst := true })) (fun t => t.memRead 9 != (code false 9 [0x01]).memRead 9) = true ∧
    after (step (State.reset.drive (.load 255 1))) (fun t => t.memRead 255 != State.reset.memRead 255) = true ∧
    after (step (code false 0 [0x45, 0x07])) (fun t => t.memRead 0xF3 != (code false 0 [0x45, 0x07]).memRead 0xF3) = true := by decide

/-- A PUSH whose cell is the next opcode and one whose cell is the next operand slot, and a CALL at the last address, through R7. -/
theorem witness_StoreSeenByNextFetch :
    (let s := code false 6 [0x45, 0x00] [(0, 1), (7, 9)]
     Memory.wf s.mem = true ∧ s.regs[7] ≠ 0 ∧
       after (exec (.push (regByte 0)) s) (fun t => t.pc.toNat + 0 == (s.regs[7] - 1).toNat && t.slot 0 == some 1) = true) ∧
    (let s := code false 6 [0x45, 0x00] [(0, 1), (7, 11)]
     Memory.wf s.mem = true ∧ s.regs[7] ≠ 0 ∧
       after (exec (.push (regByte 0)) s) (fun t => t.pc.toNat + 2 == (s.regs[7] - 1).toNat && t.slot 2 == some 1) = true) ∧
    (let s := code false 253 [0x50, 0x07] [(7, 1)]
     Memory.wf s.mem = true ∧ s.regs[7] ≠ 0 ∧ s.pc.toNat + 2 ≤ 255 ∧
       after (exec (.call (regByte 7)) s) (fun t => t.pc.toNat + 0 == (s.regs[7] - 1).toNat && t.slot 0 == some 255) = true) := by
  decide

theorem witness_OutputOnlyByPrn :
    (code false 254 [0x47, 0x07]).runs ∧
    after (step (code false 254 [0x47, 0x07])) (fun t => t.outPort == some 0xF4 && t.out == [0xF4]) = true ∧
    after (step (code false 254 [0x47, 0x08])) (fun t => t.outPort == none && t.out == []) = true ∧
    (State.reset.engine ≠ .running ∧ State.reset.inputs.rst = false) ∧
    ((code false 0 []).drive { Inputs.idle with rst := true }).inputs.rst = true := by decide

theorem witness_LatchIsInvisible : ∃ t, step (code false 0 [0x47, 0x07]) = .next t := step_next _

/-- In RUNNING and in HALTED, with ports that READY would honour. -/
theorem witness_HostPortsIgnoredOutsideReady :
    ((code false 0 []).engine ≠ .ready ∧ (code false 0 []).inputs.rst = false ∧ (Inputs.load 9 7).rst = false ∧ Inputs.start.rst = false) ∧
    (∃ t, step (code false 0 []) = .next t) ∧ (∃ t, step { code false 0 [] with engine := .halted } = .next t) :=
  ⟨by decide, step_next _, step_next _⟩

/-- A reset of a HALTED block, which leaves it. -/
theorem witness_ResetMakesFreshEngine :
    (let s : State := { code false 0 [] with engine := .halted, inputs := { Inputs.idle with rst := true } }
     s.inputs.rst = true ∧ s.engine = .halted ∧ after (step s) (fun t => t.engine != .halted) = true) := by decide

/-- An image of 256 bytes, and one of 257. -/
theorem witness_LoadPlacesImage :
    (List.replicate 256 (1 : Byte)).length ≤ 256 ∧ 256 < (List.replicate 257 (1 : Byte)).length :=
  ⟨Nat.le_of_eq List.length_replicate, Nat.le_of_eq List.length_replicate.symm⟩

theorem witness_LoadedInstructionRunsFirst :
    (Instr.shr 7 7).wellFormed = true ∧ (Instr.shr 7 7).isExt = true ∧ ({ Config.default with extAlu := true } : Config).extAlu = true ∧
    (encode (.shr 7 7) ++ List.replicate 253 (0 : Byte)).length ≤ 256 :=
  ⟨by decide, rfl, rfl, by rw [List.length_append, List.length_replicate]; decide⟩

theorem witness_PcStaysInRange : (code false 256 []).pc.toNat ≤ 256 ∧ ∃ t, step (code false 256 []) = .next t := ⟨by decide, step_next _⟩

/-- A RUNNING state that meets the invariant, whose next step leaves PC at 256. -/
theorem code_inv : (code false 253 [0x82, 0x07, 0x07]).Inv where
  memWf := by decide
  pcRange := by decide
  codeRange := by decide
  recordClear := by decide
  recordPc := by decide
  readyFresh := by decide
  outPulse := fun v h => by cases h
  slotOrder := by decide

theorem witness_StepKeepsInvariant :
    (code false 253 [0x82, 0x07, 0x07]).Inv ∧ ∃ t, step (code false 253 [0x82, 0x07, 0x07]) = .next t := ⟨code_inv, step_next _⟩

/-- A state for each clause: RUNNING with the invariant and no output, READY, HALTED. -/
theorem witness_OutputPortsByEngineState :
    ((code false 253 [0x82, 0x07, 0x07]).Inv ∧ (code false 253 [0x82, 0x07, 0x07]).outputs.statusState ≠ 2) ∧
    (code false 0 []).outPort = none ∧ (code false 0 []).engine = .running ∧ State.reset.engine = .ready ∧
    ({ code false 0 [] with engine := .halted } : State).engine = .halted :=
  ⟨⟨code_inv, by decide⟩, rfl, rfl, rfl, rfl⟩

end Sys2Proof.Tests
end

section
/-! PROOFS. How the engine state changes (10_state.md R31): what one step can do to it, said once, and the obligation O39. -/

namespace Sys2Proof.Machine

/-- No halt code is numbered over 7 (60_exceptions.md R283). -/
theorem HaltCode.bits_toNat_le (c : HaltCode) : c.bits.toNat ≤ 7 := by
  cases c <;> decide

/-- A step with `rst` leaves the block READY (70_reset_and_hazards.md R320). -/
@[simp] theorem State.onRst_engine (s : State) : s.onRst.engine = .ready := rfl

/-- A READY cycle starts the run exactly on `run` (R324), whether or not the host also writes a byte. -/
theorem State.readyCycle_engine (s : State) :
    s.readyCycle.engine = if s.inputs.run then .running else s.engine := by
  unfold State.readyCycle
  cases s.inputs.run with
  | true => rfl
  | false => cases s.inputs.loadWe <;> rfl

/-- An instruction keeps the engine state or halts. -/
theorem exec_keeps_engine_or_halts {i : Instr} {s t : State} (h : exec i s = .next t) :
    t.engine = s.engine ∨ ∃ c, t = s.enterHalted c i.opcode := by
  have r := exec_raises i s
  rw [h] at r
  cases k : haltCodeOf i s with
  | none =>
    rw [k] at r
    obtain ⟨u, e, hu⟩ := r
    cases e
    exact .inl hu
  | some c =>
    rw [k] at r
    cases r
    exact .inr ⟨c, rfl⟩

/-- A running step stays in RUNNING or enters HALTED, from the fetched state, for a check or an instruction. -/
theorem step_keeps_running_or_halts {s t : State} (r : s.runs) (h : step s = .next t) :
    t.engine = .running ∨ ∃ c op, t = s.latched.enterHalted c op := by
  cases d : s.fetchDecode with
  | error e =>
    rw [step_undecoded r d] at h
    cases h
    exact .inr ⟨e.1, e.2, rfl⟩
  | ok i =>
    rw [step_decoded r d] at h
    rcases exec_keeps_engine_or_halts h with k | ⟨c, k⟩
    · exact .inl (by rw [k, State.latched_engine, r.1])
    · exact .inr ⟨c, i.opcode, k⟩

/-- Settles O39: `rst` comes first, and without it each engine state has its own step: the READY cycle, a running step, none. -/
theorem engineTransitions : Obligations.EngineTransitions := by
  intro s t h
  refine ⟨fun rst => ?_, fun rst => ⟨fun ready => ?_, fun running => ?_, fun halted => ?_⟩⟩
  · rw [step_rst rst] at h
    cases h
    exact s.onRst_engine
  · rw [step_ready rst ready] at h
    cases h
    rw [State.readyCycle_engine, ready]
  · rcases step_keeps_running_or_halts ⟨running, rst⟩ h with k | ⟨c, op, rfl⟩
    · exact .inl k
    · exact .inr ⟨State.enterHalted_engine .., c.bits_toNat_le⟩
  · rw [step_halted rst halted] at h
    cases h
    rfl

end Sys2Proof.Machine
end

section
/-! PROOFS. The undefined opcode bytes (30_encoding.md R103, 60_exceptions.md R284): how many there are, that the decoder reports exactly
those, when a running step halts with a given code, and the obligation O31. -/

namespace Sys2Proof.Machine

/-! ## Counting bytes -/

/-- The 256 bytes in order. -/
def allBytes : List Byte := (List.range 256).map (BitVec.ofNat 8)

theorem mem_allBytes (b : Byte) : b ∈ allBytes :=
  List.mem_map.mpr ⟨b.toNat, List.mem_range.mpr b.isLt, BitVec.ofNat_toNat ..⟩

theorem nodup_allBytes : allBytes.Nodup := by
  refine List.nodup_range.map_on fun m hm n hn e => ?_
  have e' : m % 256 = n % 256 := by simpa using congrArg BitVec.toNat e
  rw [List.mem_range] at hm hn
  omega

/-- Of the 256 bytes, a list without repetitions holds as many as it is long. -/
theorem countP_mem_allBytes {l : List Byte} (h : l.Nodup) : allBytes.countP (fun b => decide (b ∈ l)) = l.length := by
  have p : (allBytes.filter (fun b => decide (b ∈ l))).Perm l :=
    (List.perm_ext_iff_of_nodup (nodup_allBytes.filter _) h).mpr fun b => by simp [mem_allBytes]
  rw [List.countP_eq_length_filter, p.length_eq]

/-- So it leaves out the rest of them. -/
theorem countP_notMem_range {l : List Byte} (h : l.Nodup) :
    (List.range 256).countP (fun n => decide (BitVec.ofNat 8 n ∉ l)) = 256 - l.length := by
  have total := List.length_eq_countP_add_countP (fun b => decide (b ∈ l)) (l := allBytes)
  have out : allBytes.countP (fun b => decide ¬ decide (b ∈ l) = true) =
      (List.range 256).countP (fun n => decide (BitVec.ofNat 8 n ∉ l)) := by
    simp [allBytes, List.countP_map, Function.comp_def]
  rw [countP_mem_allBytes h, out, allBytes, List.length_map, List.length_range] at total
  omega

/-- No opcode is assigned twice (R96, R97). -/
theorem definedOpcodes_nodup (ext : Bool) : (definedOpcodes ext).Nodup := by
  cases ext <;> decide

/-- The 13 opcodes of R96, and the 9 of R97 where they are enabled. -/
theorem definedOpcodes_length (ext : Bool) : (definedOpcodes ext).length = if ext then 22 else 13 := by
  cases ext <;> rfl

/-! ## The decoder -/

/-- Once a row is found, the only error left is an operand past address 255 (40_execute_cycle.md R133). -/
theorem Shape.build_ne_unknownOpcode (sh : Shape) (op op' : Byte) (b1 b2 : Option Byte) :
    sh.build op b1 b2 ≠ .error (.unknownOpcode op') := by
  cases sh <;> cases b1 <;> cases b2 <;> simp [Shape.build]

/-- The decoder reports exactly the bytes outside the tables, whatever the operand slots hold. -/
theorem decode_eq_unknownOpcode_iff (ext : Bool) (op : Byte) (b1 b2 : Option Byte) :
    decode ext op b1 b2 = .error (.unknownOpcode op) ↔ op ∉ definedOpcodes ext := by
  rcases findShape_cases ext op with ⟨undefined, e⟩ | ⟨defined, sh, e, -⟩
  · simp [decode, e, undefined]
  · simpa [decode, e, defined] using Shape.build_ne_unknownOpcode sh op op b1 b2

/-! ## When a running step halts with a given code -/

/-- Two halt codes have the same number only if they are the same code (R283). -/
theorem HaltCode.bits_inj {c d : HaltCode} : c.bits = d.bits ↔ c = d := by
  cases c <;> cases d <;> decide

/-- A step whose fetch or decode fails halts with the code of the failed check and no other. -/
theorem haltsWith_iff_of_undecoded {s : State} {c : HaltCode} {op : Byte} (r : s.runs) (d : s.fetchDecode = .error (c, op))
    (n : HaltCode) : HaltsWith s n.bits ↔ c = n := by
  simp [HaltsWith, step_undecoded r d, HaltCode.bits_inj]

/-- A step that decodes an instruction halts with a code exactly where the instruction raises it. -/
theorem haltsWith_iff_of_decoded {s : State} {i : Instr} (r : s.runs) (d : s.fetchDecode = .ok i) (n : HaltCode) :
    HaltsWith s n.bits ↔ haltCodeOf i s.latched = some n := by
  have raises := exec_raises i s.latched
  cases k : haltCodeOf i s.latched with
  | none =>
    rw [k] at raises
    obtain ⟨t, e, running⟩ := raises
    simp [HaltsWith, step_decoded r d, e, running, r.1]
  | some c =>
    rw [k] at raises
    simp [HaltsWith, step_decoded r d, show exec i s.latched = _ from raises, HaltCode.bits_inj]

/-- No instruction raises ERR_UNKNOWN_OPCODE: that check is over before its rule begins (60_exceptions.md R292). -/
theorem haltCodeOf_ne_unknownOpcode (i : Instr) (s : State) : haltCodeOf i s ≠ some .unknownOpcode := by
  unfold haltCodeOf ownHaltCode
  cases i <;> simp only <;> split_ifs <;> simp

/-- A running step halts with ERR_UNKNOWN_OPCODE exactly where the byte at PC is an undefined opcode (R284). -/
theorem haltsWith_unknownOpcode_iff {s : State} (r : s.runs) :
    HaltsWith s HaltCode.unknownOpcode.bits ↔ s.pc.toNat ≤ 255 ∧ s.byteAt 0 ∉ definedOpcodes s.cfg.extAlu := by
  rcases s.fetchDecode_cases with ⟨past, d⟩ | ⟨inside, undefined, d⟩ | ⟨-, defined, -, d⟩ | ⟨-, defined, i, d, -⟩
  · simp [haltsWith_iff_of_undecoded r d, past]
  · simp [haltsWith_iff_of_undecoded r d, inside, undefined]
  · simp [haltsWith_iff_of_undecoded r d, defined]
  · simp [haltsWith_iff_of_decoded r d, haltCodeOf_ne_unknownOpcode, defined]

/-- The halt on an undefined opcode at PC: the record holds PC and the byte (R284). -/
theorem step_of_undefined {s : State} (r : s.runs) (inside : s.pc.toNat ≤ 255)
    (undefined : s.byteAt 0 ∉ definedOpcodes s.cfg.extAlu) : step s = .next (s.latched.haltedWith 1 (s.byteAt 0)) := by
  have d : s.fetchDecode = .error (.unknownOpcode, s.byteAt 0) := by
    rw [State.fetchDecode_of_some (State.slot_zero inside), (decode_eq_unknownOpcode_iff ..).mpr undefined]
    rfl
  exact step_undecoded r d

/-- Settles O31: the tables hold 13 or 22 distinct opcodes, the decoder reports every other byte, and no later check raises code 1. -/
theorem unknownOpcodeHalts : Obligations.UnknownOpcodeHalts := by
  refine ⟨decode_eq_unknownOpcode_iff, fun ext => ?_, fun ext => ?_, fun s r => ⟨haltsWith_unknownOpcode_iff r, step_of_undefined r⟩⟩
  · rw [countP_notMem_range (definedOpcodes_nodup ext), definedOpcodes_length]
    cases ext <;> rfl
  · cases ext <;> decide

end Sys2Proof.Machine
end

section
/-! PROOFS. PC at the end of a step (40_execute_cycle.md R136): what a halt records, where a completed instruction leaves PC, and the
obligation O29. -/

namespace Sys2Proof.Machine

/-- A running step that halts leaves PC and records it (R138). -/
theorem step_halt_keeps_pc {s t : State} (r : s.runs) (h : step s = .next t) (halted : t.engine = .halted) :
    t.pc = s.pc ∧ t.haltPc = s.pc := by
  rcases step_keeps_running_or_halts r h with k | ⟨c, op, rfl⟩
  · exact absurd (k.symm.trans halted) (by decide)
  · simp

/-- An instruction that halts a running block leaves PC and records it (R138). -/
theorem exec_halt_keeps_pc {i : Instr} {s t : State} (running : s.engine = .running) (h : exec i s = .next t)
    (halted : t.engine = .halted) : t.pc = s.pc ∧ t.haltPc = s.pc := by
  rcases exec_keeps_engine_or_halts h with k | ⟨c, rfl⟩
  · exact absurd (running.symm.trans (k.symm.trans halted)) (by decide)
  · simp

/-- An instruction that does not halt has its effect. -/
theorem effect_of_not_halted {i : Instr} {s t : State} (h : exec i s = .next t) (going : t.engine ≠ .halted) : Effect i s t := by
  rcases exec_cases h with effect | ⟨c, rfl⟩
  · exact effect
  · exact absurd (State.enterHalted_engine ..) going

/-- The condition of a branch is bit 0 of the flags register (10_state.md R26). -/
theorem State.equalFlag_eq (s : State) : s.equalFlag = s.regs[6].getLsbD 0 := rfl

/-- Settles O29: a halt is the halt entry, which keeps PC; otherwise the instruction has its effect, and PC is read off it row by row. -/
theorem pcAtEndOfInstruction : Obligations.PcAtEndOfInstruction := by
  refine ⟨fun s t r h => step_halt_keeps_pc r h, fun i s t running h => ⟨exec_halt_keeps_pc running h, fun going => ?_⟩⟩
  have effect := effect_of_not_halted h going
  cases i
  case hlt => exact effect
  case jmp =>
    obtain ⟨r, e, rfl⟩ := effect
    exact ⟨r, e, rfl⟩
  case call =>
    obtain ⟨r, e, -, -, rfl⟩ := effect
    exact ⟨r, e, rfl⟩
  case ret =>
    obtain ⟨-, rfl⟩ := effect
    rfl
  case jeq | jne =>
    obtain ⟨r, e, rfl⟩ := effect
    refine ⟨r, e, ?_⟩
    rw [← State.equalFlag_eq]
    cases s.equalFlag <;> rfl
  case ldi | prn =>
    obtain ⟨r, -, rfl⟩ := effect
    rfl
  case push | pop =>
    obtain ⟨r, -, -, rfl⟩ := effect
    rfl
  case cmp =>
    obtain ⟨v, rfl⟩ := effect
    rfl
  all_goals
    obtain ⟨r, v, -, rfl⟩ := effect
    rfl

end Sys2Proof.Machine
end

section
/-! PROOFS. What the statements about single instructions share: the decoder reads an instruction off its own bytes, so a step on them runs
it (30_encoding.md R98, 40_execute_cycle.md R131 to R135), and a register operand over 7 halts it (R134). -/

namespace Sys2Proof.Machine

/-- The decoder gives back an enabled instruction from exactly its own bytes. -/
theorem decode_opcode_operandBytes {ext : Bool} {i : Instr} (enabled : i.isExt = true → ext = true) :
    decode ext i.opcode i.operandBytes[0]? i.operandBytes[1]? = .ok i := by
  cases ext with
  | true => cases i <;> rfl
  | false =>
    have base : i.isExt = false := Bool.eq_false_iff.mpr fun h => Bool.false_ne_true (enabled h)
    cases i <;> first
      | rfl
      | cases base

/-- Once an instruction is decoded, a slot its format does not declare may hold anything (R94). -/
theorem decode_of_slots_le {ext : Bool} {op : Byte} {a1 a2 b1 b2 : Option Byte} {i : Instr} (h : decode ext op a1 a2 = .ok i)
    (one : ∀ b, a1 = some b → b1 = some b) (two : ∀ b, a2 = some b → b2 = some b) : decode ext op b1 b2 = .ok i := by
  unfold decode at h ⊢
  cases e : findShape ext op with
  | none => simp [e] at h
  | some sh =>
    rw [e] at h
    cases sh with
    | z j => exact h
    | r mk =>
      cases a1 with
      | none => cases h
      | some a => rw [one a rfl]; exact h
    | rr mk | ri mk =>
      cases a1 with
      | none => cases h
      | some a =>
        cases a2 with
        | none => cases h
        | some b => rw [one a rfl, two b rfl]; exact h

/-- Where the bytes of an enabled instruction lie at PC, a running step runs it. -/
theorem stepRuns_encode {s : State} {i : Instr} (enabled : i.isExt = true → s.cfg.extAlu = true) : StepRuns s (encode i) i :=
  stepRuns_of_decode fun code => decode_of_slots_le (decode_opcode_operandBytes enabled)
    (fun _ e => slot_of_codeIs (j := 1) code e) (fun _ e => slot_of_codeIs (j := 2) code e)

/-- The length of an instruction stands in its opcode byte (30_encoding.md R95). -/
theorem encode_length (i : Instr) : (encode i).length = (i.opcode >>> 6).toNat + 1 := by
  cases i <;> simp [encode, Instr.operandBytes, Instr.opcode]

/-- Where the opcode of an enabled instruction lies at PC and its bytes reach past address 255, a running step halts: nothing is fetched
there, because every instruction with this opcode is as long (R133). -/
theorem stepCutOff_encode {s : State} {i : Instr} (enabled : i.isExt = true → s.cfg.extAlu = true) :
    StepCutOff s i.opcode (encode i).length := by
  intro r code past
  have zero : s.slot 0 = some i.opcode := slot_of_codeIs code rfl
  have inside : s.pc.toNat ≤ 255 := by
    by_contra outside
    rw [State.slot_of_gt (by omega)] at zero
    cases zero
  have opcode : s.byteAt 0 = i.opcode := Option.some.inj ((State.slot_zero inside).symm.trans zero)
  have defined : i.opcode ∈ definedOpcodes s.cfg.extAlu := by
    by_contra undefined
    have known := decode_opcode_operandBytes enabled
    rw [(decode_eq_unknownOpcode_iff ..).mpr undefined] at known
    cases known
  have d : s.fetchDecode = .error (.memAddr, i.opcode) := by
    rcases s.fetchDecode_cases with ⟨outside, -⟩ | ⟨-, undefined, -⟩ | ⟨-, -, -, d⟩ | ⟨-, -, j, -, same, fits, -⟩
    · omega
    · exact absurd (opcode ▸ defined) undefined
    · rw [d, opcode]
    · rw [encode_length, ← same, opcode, ← encode_length] at fits
      omega
  exact step_undecoded r d

/-- An instruction with a register operand over 7 halts with ERR_REG_INDEX (2). -/
theorem exec_of_illegal_operand {i : Instr} {b : Byte} (declared : b ∈ i.regOperands) (illegal : 8 ≤ b.toNat) (s : State) :
    exec i s = .next (s.haltedWith 2 i.opcode) := by
  have illFormed : i.wellFormed ≠ true := fun ok => by
    have : b.toNat < 8 := of_decide_eq_true (List.all_eq_true.mp ok b declared)
    omega
  have raises := exec_raises i s
  rw [haltCodeOf, if_neg illFormed] at raises
  exact raises

end Sys2Proof.Machine
end

section
/-! PROOFS. HLT, LDI and PRN (41_halt_load_print.md R161 to R163): what each does with legal operands, and the obligations O1 to O3. -/

namespace Sys2Proof.Machine

/-- HLT is the halt entry with HALT_OK (R161). -/
theorem exec_hlt (s : State) : exec .hlt s = .next (s.enterHalted .haltOk 0x01) := rfl

/-- LDI with a legal register writes the immediate and advances (R162). -/
theorem exec_ldi_regByte (a : Reg) (imm : Byte) (s : State) :
    exec (.ldi (regByte a) imm) s = .next ((s.setReg a imm).advance 3) := by
  simp only [exec, execLdi, regOperand_regByte, ok_bind, commit_ok]

/-- PRN with a legal register emits its byte and advances (R163). -/
theorem exec_prn_regByte (a : Reg) (s : State) : exec (.prn (regByte a)) s = .next ((s.emit (s.reg a)).advance 2) := by
  simp only [exec, execPrn, regOperand_regByte, ok_bind, commit_ok]

/-- Settles O1: HLT is the halt entry, and a halted block keeps its state whatever the host drives, short of `rst`. -/
theorem hltHaltsNormallyAndForGood : Obligations.HltHaltsNormallyAndForGood := by
  refine fun s p => ⟨exec_hlt s, stepRuns_encode (i := .hlt) nofun, fun rst t h => ?_⟩
  rw [exec_hlt] at h
  cases h
  exact step_halted rst rfl

/-- Settles O2: the completing case, the illegal operand, the step on the bytes, and the operand bytes past address 255. -/
theorem ldiWritesImmediate : Obligations.LdiWritesImmediate :=
  fun s a ra imm =>
    ⟨exec_ldi_regByte a imm s, fun illegal => exec_of_illegal_operand (i := .ldi ra imm) (List.mem_singleton.mpr rfl) illegal s,
      stepRuns_encode (i := .ldi ra imm) nofun, stepCutOff_encode (i := .ldi ra imm) nofun⟩

/-- Settles O3: the completing case, the illegal operand, the step on the bytes, and the operand byte past address 255. -/
theorem prnEmitsRegister : Obligations.PrnEmitsRegister :=
  fun s a ra =>
    ⟨exec_prn_regByte a s, fun illegal => exec_of_illegal_operand (i := .prn ra) (List.mem_singleton.mpr rfl) illegal s,
      stepRuns_encode (i := .prn ra) nofun, stepCutOff_encode (i := .prn ra) nofun⟩

end Sys2Proof.Machine
end

section
/-! PROOFS. The ALU instructions (42_alu.md R185 to R208): what a supported operation on two legal registers commits, the clauses that all
extension instructions share, the results whose stated form differs from the ALU's own, and the obligations O4 to O13. -/

namespace Sys2Proof.Machine

/-! ## Two legal registers -/

/-- Every base tag is supported, and with `EXT_ALU` every tag is (R181). -/
theorem alu_of_supported {ext : Bool} {tag : AluTag} (supported : tag.isExt = true → ext = true) (a b : Byte) :
    alu ext tag a b = aluResult tag a b := by
  cases ext with
  | true => exact alu_ext tag a b
  | false => exact alu_base false (Bool.eq_false_iff.mpr fun h => Bool.false_ne_true (supported h)) a b

/-- A supported operation on two legal registers: its result goes to the first, and PC advances; or it raises (R183). -/
theorem aluPair_regByte {tag : AluTag} {s : State} (supported : tag.isExt = true → s.cfg.extAlu = true) (a b : Reg) :
    aluPair tag (regByte a) (regByte b) s =
      aluResult tag (s.reg a) (s.reg b) >>= fun v => .ok ((s.setReg a v).advance 3) := by
  rw [aluPair, regOperand_regByte, regOperand_regByte, ok_bind, ok_bind, alu_of_supported supported]

/-- Where the operation has a result, it is written. -/
theorem commit_aluPair_of_ok {tag : AluTag} {op v : Byte} {s : State} {a b : Reg} (supported : tag.isExt = true → s.cfg.extAlu = true)
    (result : aluResult tag (s.reg a) (s.reg b) = .ok v) :
    commit op s (aluPair tag (regByte a) (regByte b) s) = .next ((s.setReg a v).advance 3) := by
  rw [aluPair_regByte supported, result, ok_bind, commit_ok]

/-- Where the operation raises, the block halts with its code. -/
theorem commit_aluPair_of_error {tag : AluTag} {op : Byte} {c : HaltCode} {s : State} {a b : Reg}
    (supported : tag.isExt = true → s.cfg.extAlu = true) (raised : aluResult tag (s.reg a) (s.reg b) = .error c) :
    commit op s (aluPair tag (regByte a) (regByte b) s) = .next (s.haltedWith c.bits op) := by
  rw [aluPair_regByte supported, raised, error_bind, commit_error, enterHalted_eq]

/-! ## The clauses that hold of the operand bytes, not of the operation -/

/-- An instruction with two register operands halts with ERR_REG_INDEX (2) where either is over 7. -/
theorem exec_of_illegal_pair {i : Instr} {ra rb : Byte} {s : State} (operands : i.regOperands = [ra, rb])
    (illegal : 8 ≤ ra.toNat ∨ 8 ≤ rb.toNat) : exec i s = .next (s.haltedWith 2 i.opcode) := by
  rcases illegal with h | h
  · exact exec_of_illegal_operand (by simp [operands]) h s
  · exact exec_of_illegal_operand (by simp [operands]) h s

/-- An enabled instruction runs where its bytes lie at PC, and halts where they reach past address 255. -/
theorem stepRuns_and_stepCutOff {s : State} {i : Instr} (enabled : i.isExt = true → s.cfg.extAlu = true) :
    StepRuns s (encode i) i ∧ StepCutOff s i.opcode (encode i).length :=
  ⟨stepRuns_encode enabled, stepCutOff_encode enabled⟩

/-- Without `EXT_ALU` the decoder does not know the opcode of an extension instruction (30_encoding.md R97, R103). -/
theorem decode_of_disabled {i : Instr} (ext : i.isExt = true) (b1 b2 : Option Byte) :
    decode false i.opcode b1 b2 = .error (.unknownOpcode i.opcode) := by
  cases i <;> cases ext <;> rfl

/-- So a running step on it halts with ERR_UNKNOWN_OPCODE (1). -/
theorem stepUnknown_of_isExt {i : Instr} {s : State} (ext : i.isExt = true) (off : s.cfg.extAlu = false) : StepUnknown s i.opcode :=
  stepUnknown_of_decode (off ▸ decode_of_disabled ext)

/-! ## Results -/

/-- Reducing first changes nothing. -/
theorem mod256_eq_ofNat_mod (n : Nat) : mod256 n = BitVec.ofNat 8 (n % 256) :=
  BitVec.eq_of_toNat_eq (by simp [mod256])

/-- The flags byte of CMP, with the bytes compared as numbers (R190, R191). -/
theorem cmpFlags_eq (a b : Byte) :
    cmpFlags a b =
      if a.toNat = b.toNat then 0b00000001 else if a.toNat < b.toNat then 0b00000100 else 0b00000010 := by
  simp only [cmpFlags, BitVec.toNat_inj]
  rfl

/-- A left shift by the whole count byte: from 8 on, 256 divides the product (R207). -/
theorem aluResult_shl (a b : Byte) :
    aluResult .shl a b = .ok (if 8 ≤ b.toNat then 0 else BitVec.ofNat 8 ((a.toNat * 2 ^ b.toNat) % 256)) := by
  rw [aluResult, mod256_eq_ofNat_mod]
  split
  case isTrue h =>
    have zero : a.toNat * 2 ^ b.toNat % 256 = 0 := Nat.mod_eq_zero_of_dvd (Dvd.dvd.mul_left (Nat.pow_dvd_pow 2 h) _)
    rw [zero]
    rfl
  case isFalse => rfl

/-- A right shift by the whole count byte: from 8 on, a byte is less than the divisor (R208). -/
theorem aluResult_shr (a b : Byte) :
    aluResult .shr a b = .ok (if 8 ≤ b.toNat then 0 else BitVec.ofNat 8 (a.toNat / 2 ^ b.toNat)) := by
  rw [aluResult]
  split
  case isTrue h =>
    have zero : a.toNat / 2 ^ b.toNat = 0 := Nat.div_eq_of_lt (a.isLt.trans_le (Nat.pow_le_pow_right (by decide) h))
    rw [zero]
    rfl
  case isFalse => rfl

/-! ## The two instructions that are no two-register rule -/

/-- CMP with legal registers writes the flags register and advances (R190). -/
theorem exec_cmp_regByte (a b : Reg) (s : State) :
    exec (.cmp (regByte a) (regByte b)) s = .next ((s.setReg 6 (cmpFlags (s.reg a) (s.reg b))).advance 3) := by
  simp only [exec, execCmp, regOperand_regByte, ok_bind, alu_base _ (tag := .cmp) rfl, aluResult, commit_ok, State.setFl_eq]

/-- With `EXT_ALU`, NOT with a legal register complements it and advances (R206). -/
theorem exec_not_regByte {s : State} (on : s.cfg.extAlu = true) (a : Reg) :
    exec (.not (regByte a)) s = .next ((s.setReg a (mod256 (255 - (s.reg a).toNat))).advance 2) := by
  simp only [exec, execNot, regOperand_regByte, ok_bind, on, alu_ext, aluResult, commit_ok]

/-! ## The base instructions -/

/-- Settles O4: the sum is committed reduced; the other clauses are those of every base instruction with two registers. -/
theorem addWrapsModulo256 : Obligations.AddWrapsModulo256 :=
  fun s a b ra rb =>
    ⟨commit_aluPair_of_ok nofun (congrArg _ (mod256_eq_ofNat_mod ((s.reg a).toNat + (s.reg b).toNat))),
      exec_of_illegal_pair (i := .add ra rb) rfl, stepRuns_and_stepCutOff (i := .add ra rb) nofun⟩

/-- Settles O5: the product is committed reduced; the other clauses are those of every base instruction with two registers. -/
theorem mulWrapsModulo256 : Obligations.MulWrapsModulo256 :=
  fun s a b ra rb =>
    ⟨commit_aluPair_of_ok nofun (congrArg _ (mod256_eq_ofNat_mod ((s.reg a).toNat * (s.reg b).toNat))),
      exec_of_illegal_pair (i := .mul ra rb) rfl, stepRuns_and_stepCutOff (i := .mul ra rb) nofun⟩

/-- Settles O6: the flags byte is the comparison of the two numbers. -/
theorem cmpWritesFlagsByte : Obligations.CmpWritesFlagsByte := by
  refine fun s a b ra rb => ⟨?_, exec_of_illegal_pair (i := .cmp ra rb) rfl, stepRuns_and_stepCutOff (i := .cmp ra rb) nofun⟩
  rw [exec_cmp_regByte, cmpFlags_eq]
  rfl

/-! ## The extension instructions -/

/-- Settles O7: with `EXT_ALU` the difference is committed reduced, and without it the opcode is in no table. -/
theorem subWrapsModulo256 : Obligations.SubWrapsModulo256 :=
  fun s a b ra rb =>
    ⟨fun on =>
      ⟨commit_aluPair_of_ok (fun _ => on) (congrArg _ (mod256_eq_ofNat_mod ((s.reg a).toNat + 256 - (s.reg b).toNat))),
        stepRuns_and_stepCutOff (i := .sub ra rb) fun _ => on⟩,
      exec_of_illegal_pair (i := .sub ra rb) rfl, stepUnknown_of_isExt (i := .sub ra rb) rfl⟩

/-- Settles O8: the test for a zero divisor decides between the halt and the quotient. -/
theorem divIsFloorOrHaltsOnZero : Obligations.DivIsFloorOrHaltsOnZero :=
  fun _ _ _ ra rb =>
    ⟨fun on =>
      ⟨fun zero => commit_aluPair_of_error (tag := .div) (fun _ => on) (if_pos zero),
        fun nonzero => commit_aluPair_of_ok (tag := .div) (fun _ => on) (if_neg nonzero),
        stepRuns_and_stepCutOff (i := .div ra rb) fun _ => on⟩,
      exec_of_illegal_pair (i := .div ra rb) rfl, stepUnknown_of_isExt (i := .div ra rb) rfl⟩

/-- Settles O9: the test for a zero divisor decides between the halt and the remainder. -/
theorem modIsRemainderOrHaltsOnZero : Obligations.ModIsRemainderOrHaltsOnZero :=
  fun _ _ _ ra rb =>
    ⟨fun on =>
      ⟨fun zero => commit_aluPair_of_error (tag := .mod) (fun _ => on) (if_pos zero),
        fun nonzero => commit_aluPair_of_ok (tag := .mod) (fun _ => on) (if_neg nonzero),
        stepRuns_and_stepCutOff (i := .mod ra rb) fun _ => on⟩,
      exec_of_illegal_pair (i := .mod ra rb) rfl, stepUnknown_of_isExt (i := .mod ra rb) rfl⟩

/-- Settles O10: the three results are the ALU's own; each instruction has the clauses of every extension instruction. -/
theorem andOrXorAreBitwise : Obligations.AndOrXorAreBitwise := by
  refine fun s a b ra rb => ⟨fun on => ⟨⟨?_, ?_, ?_⟩, ?_, ?_, ?_⟩, fun illegal => ⟨?_, ?_, ?_⟩, fun off => ⟨?_, ?_, ?_⟩⟩
  · exact commit_aluPair_of_ok (tag := .and) (fun _ => on) rfl
  · exact commit_aluPair_of_ok (tag := .or) (fun _ => on) rfl
  · exact commit_aluPair_of_ok (tag := .xor) (fun _ => on) rfl
  · exact stepRuns_and_stepCutOff (i := .and ra rb) fun _ => on
  · exact stepRuns_and_stepCutOff (i := .or ra rb) fun _ => on
  · exact stepRuns_and_stepCutOff (i := .xor ra rb) fun _ => on
  · exact exec_of_illegal_pair (i := .and ra rb) rfl illegal
  · exact exec_of_illegal_pair (i := .or ra rb) rfl illegal
  · exact exec_of_illegal_pair (i := .xor ra rb) rfl illegal
  · exact stepUnknown_of_isExt (i := .and ra rb) rfl off
  · exact stepUnknown_of_isExt (i := .or ra rb) rfl off
  · exact stepUnknown_of_isExt (i := .xor ra rb) rfl off

/-- Settles O11: NOT has one register operand; the rest is as for the other extension instructions. -/
theorem notComplementsRegister : Obligations.NotComplementsRegister :=
  fun s a ra =>
    ⟨fun on => ⟨exec_not_regByte on a, stepRuns_and_stepCutOff (i := .not ra) fun _ => on⟩,
      fun illegal => exec_of_illegal_operand (i := .not ra) (List.mem_singleton.mpr rfl) illegal s,
      stepUnknown_of_isExt (i := .not ra) rfl⟩

/-- Settles O12: the result of the left shift in the stated form is `aluResult_shl`. -/
theorem shlUsesWholeCount : Obligations.ShlUsesWholeCount :=
  fun s a b ra rb =>
    ⟨fun on =>
      ⟨commit_aluPair_of_ok (fun _ => on) (aluResult_shl (s.reg a) (s.reg b)), stepRuns_and_stepCutOff (i := .shl ra rb) fun _ => on⟩,
      exec_of_illegal_pair (i := .shl ra rb) rfl, stepUnknown_of_isExt (i := .shl ra rb) rfl⟩

/-- Settles O13: the result of the right shift in the stated form is `aluResult_shr`. -/
theorem shrUsesWholeCount : Obligations.ShrUsesWholeCount :=
  fun s a b ra rb =>
    ⟨fun on =>
      ⟨commit_aluPair_of_ok (fun _ => on) (aluResult_shr (s.reg a) (s.reg b)), stepRuns_and_stepCutOff (i := .shr ra rb) fun _ => on⟩,
      exec_of_illegal_pair (i := .shr ra rb) rfl, stepUnknown_of_isExt (i := .shr ra rb) rfl⟩

end Sys2Proof.Machine
end

section
/-! PROOFS. PUSH and POP (43_stack.md R230, R231): what each does with a legal register, on either side of its test on SP, and the
obligations O15 and O16. -/

namespace Sys2Proof.Machine

/-! ## A legal register -/

/-- PUSH at the bottom of the stack's range raises (R230). -/
theorem exec_push_regByte_of_sp_zero {s : State} (empty : s.reg 7 = 0) (a : Reg) :
    exec (.push (regByte a)) s = .next (s.enterHalted .spRange 0x45) := by
  simp only [exec, execPush, regOperand_regByte, ok_bind, decSp_of_eq empty, error_bind, commit_error, Instr.opcode]

/-- Elsewhere PUSH stores at the decremented SP the register as it is then (R230). -/
theorem exec_push_regByte {s : State} (room : s.reg 7 ≠ 0) (a : Reg) :
    exec (.push (regByte a)) s =
      .next (((s.setReg 7 (s.reg 7 - 1)).memWrite (s.reg 7 - 1) ((s.setReg 7 (s.reg 7 - 1)).reg a)).advance 2) := by
  simp only [exec, execPush, regOperand_regByte, ok_bind, decSp_of_ne room, State.sp_eq, State.reg_setReg_same, commit_ok]

/-- POP raises where SP, after the register write, is at the top of its range (R231). -/
theorem exec_pop_regByte_of_sp_max {s : State} {a : Reg} (top : (s.setReg a (s.memRead (s.reg 7))).reg 7 = 255) :
    exec (.pop (regByte a)) s = .next (s.enterHalted .spRange 0x46) := by
  simp only [exec, execPop, regOperand_regByte, ok_bind, State.sp_eq, incSp_of_eq top, error_bind, commit_error, Instr.opcode]

/-- Elsewhere POP increments SP as the register write left it (R231). -/
theorem exec_pop_regByte {s : State} {a : Reg} (below : (s.setReg a (s.memRead (s.reg 7))).reg 7 ≠ 255) :
    exec (.pop (regByte a)) s =
      .next (((s.setReg a (s.memRead (s.reg 7))).setReg 7 ((s.setReg a (s.memRead (s.reg 7))).reg 7 + 1)).advance 2) := by
  simp only [exec, execPop, regOperand_regByte, ok_bind, State.sp_eq, incSp_of_ne below, commit_ok]

/-! ## The obligations -/

/-- Settles O15: the test for SP = 0 decides between the halt and the store; the other clauses are those of every base instruction with
one register. -/
theorem pushDecrementsThenStores : Obligations.PushDecrementsThenStores :=
  fun s a ra =>
    ⟨fun empty => exec_push_regByte_of_sp_zero empty a, fun room => exec_push_regByte room a,
      fun illegal => exec_of_illegal_operand (i := .push ra) (List.mem_singleton.mpr rfl) illegal s,
      stepRuns_and_stepCutOff (i := .push ra) nofun⟩

/-- Settles O16: the test for SP = 255, made after the register write, decides between the halt and the increment; the other clauses are
those of every base instruction with one register. -/
theorem popLoadsThenIncrements : Obligations.PopLoadsThenIncrements :=
  fun s _ ra =>
    ⟨exec_pop_regByte_of_sp_max, exec_pop_regByte,
      fun illegal => exec_of_illegal_operand (i := .pop ra) (List.mem_singleton.mpr rfl) illegal s,
      stepRuns_and_stepCutOff (i := .pop ra) nofun⟩

end Sys2Proof.Machine
end

section
/-! PROOFS. CALL, RET, JMP, JEQ and JNE (44_control_transfer.md R250 to R263): what each does on either side of its own tests, and the
obligations O18, O19 and O21 to O23. -/

namespace Sys2Proof.Machine

/-! ## CALL and RET -/

/-- CALL raises where its return address would not fit a byte, before it looks at SP (R250). -/
theorem exec_call_regByte_of_return_gt {s : State} (outside : 255 < s.pc.toNat + 2) (a : Reg) :
    exec (.call (regByte a)) s = .next (s.enterHalted .retAddr 0x50) := by
  simp only [exec, execCall, regOperand_regByte, ok_bind, gt_iff_lt, if_pos outside, commit_error, Instr.opcode]

/-- With a return address that fits, CALL at the bottom of the stack's range raises (R250). -/
theorem exec_call_regByte_of_sp_zero {s : State} (fits : s.pc.toNat + 2 ≤ 255) (empty : s.reg 7 = 0) (a : Reg) :
    exec (.call (regByte a)) s = .next (s.enterHalted .spRange 0x50) := by
  simp only [exec, execCall, regOperand_regByte, ok_bind, gt_iff_lt, if_neg (Nat.not_lt.mpr fits), decSp_of_eq empty, error_bind,
    commit_error, Instr.opcode]

/-- Elsewhere CALL stores the return address at the decremented SP and jumps to the register as it is then (R250). -/
theorem exec_call_regByte {s : State} (fits : s.pc.toNat + 2 ≤ 255) (room : s.reg 7 ≠ 0) (a : Reg) :
    exec (.call (regByte a)) s =
      .next (((s.setReg 7 (s.reg 7 - 1)).memWrite (s.reg 7 - 1) (mod256 (s.pc.toNat + 2))).jump
        ((s.setReg 7 (s.reg 7 - 1)).reg a)) := by
  simp only [exec, execCall, regOperand_regByte, ok_bind, gt_iff_lt, if_neg (Nat.not_lt.mpr fits), decSp_of_ne room, State.sp_eq,
    State.reg_setReg_same, State.reg_memWrite, commit_ok]

/-- RET at the top of the stack's range raises (R251). -/
theorem exec_ret_of_sp_max {s : State} (top : s.reg 7 = 255) : exec .ret s = .next (s.enterHalted .spRange 0x11) := by
  simp only [exec, execRet, incSp_of_eq top, error_bind, commit_error, Instr.opcode]

/-- Elsewhere RET jumps to the byte at the old SP and increments SP once (R251). -/
theorem exec_ret {s : State} (below : s.reg 7 ≠ 255) :
    exec .ret s = .next ((s.setReg 7 (s.reg 7 + 1)).jump (s.memRead (s.reg 7))) := by
  simp only [exec, execRet, incSp_of_ne below, ok_bind, State.sp_eq, commit_ok]

/-! ## The jumps -/

/-- JMP with a legal register jumps (R261). -/
theorem exec_jmp_regByte (a : Reg) (s : State) : exec (.jmp (regByte a)) s = .next (s.jump (s.reg a)) := by
  simp only [exec, execJmp, regOperand_regByte, ok_bind, commit_ok]

/-- JEQ with a legal register jumps where the Equal flag is set, and advances elsewhere (R262). -/
theorem exec_jeq_regByte (a : Reg) (s : State) :
    exec (.jeq (regByte a)) s = .next (if s.equalFlag then s.jump (s.reg a) else s.advance 2) := by
  simp only [exec, execJeq, regOperand_regByte, ok_bind, commit_ok]

/-- JNE with a legal register advances where the Equal flag is set, and jumps elsewhere (R263). -/
theorem exec_jne_regByte (a : Reg) (s : State) :
    exec (.jne (regByte a)) s = .next (if s.equalFlag then s.advance 2 else s.jump (s.reg a)) := by
  simp only [exec, execJne, regOperand_regByte, ok_bind, commit_ok]

/-! ## The obligations -/

/-- Settles O18: the return address is tested first, then SP; the other clauses are those of every base instruction with one register. -/
theorem callPushesReturnAddress : Obligations.CallPushesReturnAddress :=
  fun s a ra =>
    ⟨fun outside => exec_call_regByte_of_return_gt outside a, fun fits empty => exec_call_regByte_of_sp_zero fits empty a,
      fun fits room => exec_call_regByte fits room a,
      fun illegal => exec_of_illegal_operand (i := .call ra) (List.mem_singleton.mpr rfl) illegal s,
      stepRuns_and_stepCutOff (i := .call ra) nofun⟩

/-- Settles O19: the test for SP = 255 decides between the halt and the jump; one byte at PC is the whole instruction. -/
theorem retPopsTarget : Obligations.RetPopsTarget :=
  fun _ => ⟨exec_ret_of_sp_max, exec_ret, stepRuns_encode (i := .ret) nofun⟩

/-- Settles O21: JMP always jumps; the other clauses are those of every base instruction with one register. -/
theorem jmpSetsPc : Obligations.JmpSetsPc :=
  fun s a ra =>
    ⟨exec_jmp_regByte a s, fun illegal => exec_of_illegal_operand (i := .jmp ra) (List.mem_singleton.mpr rfl) illegal s,
      stepRuns_and_stepCutOff (i := .jmp ra) nofun⟩

/-- Settles O22: the flag decides between the jump and the advance. -/
theorem jeqTestsEqualBit : Obligations.JeqTestsEqualBit := by
  refine fun s a ra =>
    ⟨?_, fun illegal => exec_of_illegal_operand (i := .jeq ra) (List.mem_singleton.mpr rfl) illegal s,
      stepRuns_and_stepCutOff (i := .jeq ra) nofun⟩
  rw [exec_jeq_regByte, ← State.equalFlag_eq]
  cases s.equalFlag <;> rfl

/-- Settles O23: the flag decides the other way round, so for either value of it one of the two instructions jumps and one advances. -/
theorem jneTestsEqualBitClear : Obligations.JneTestsEqualBitClear := by
  intro s a ra
  obtain ⟨runs, cutOff⟩ : StepRuns s [0x56, ra] (.jne ra) ∧ StepCutOff s 0x56 2 := stepRuns_and_stepCutOff (i := .jne ra) nofun
  refine ⟨?_, fun illegal => exec_of_illegal_operand (i := .jne ra) (List.mem_singleton.mpr rfl) illegal s, runs, cutOff, ?_⟩
  · rw [exec_jne_regByte, ← State.equalFlag_eq]
    cases s.equalFlag <;> rfl
  · rw [exec_jeq_regByte, exec_jne_regByte]
    cases s.equalFlag with
    | true => exact .inl ⟨rfl, rfl⟩
    | false => exact .inr ⟨rfl, rfl⟩

end Sys2Proof.Machine
end

section
/-! PROOFS. Which instruction a running step fetches (30_encoding.md R90, R95, 40_execute_cycle.md R131 to R133): the formats told apart by
the opcode, and the fetch as an equivalence with `Fetched`. -/

namespace Sys2Proof.Machine

/-! ## The formats -/

/-- An opcode's two top bits count its operand bytes (30_encoding.md R95): none in format Z. -/
theorem operandCount_of_mem_zOpcodes {op : Byte} (h : op ∈ zOpcodes) : (op >>> 6).toNat = 0 := by
  revert op
  decide

/-- One in format R. -/
theorem operandCount_of_mem_rOpcodes {ext : Bool} {op : Byte} (h : op ∈ rOpcodes ext) : (op >>> 6).toNat = 1 := by
  revert op
  cases ext <;> decide

/-- Two in format RR. -/
theorem operandCount_of_mem_rrOpcodes {ext : Bool} {op : Byte} (h : op ∈ rrOpcodes ext) : (op >>> 6).toNat = 2 := by
  revert op
  cases ext <;> decide

/-- Two in format RI. -/
theorem operandCount_of_mem_riOpcodes {op : Byte} (h : op ∈ riOpcodes) : (op >>> 6).toNat = 2 := by
  revert op
  decide

/-- No opcode has both of the formats with two operand bytes. -/
theorem not_mem_rrOpcodes_of_mem_riOpcodes {ext : Bool} {op : Byte} (h : op ∈ riOpcodes) : op ∉ rrOpcodes ext := by
  revert op
  cases ext <;> decide

/-- The opcode at PC declares an operand byte that lies past address 255 (40_execute_cycle.md R133). -/
def State.OperandPast (s : State) : Prop :=
  s.byteAt 0 ∈ rOpcodes s.cfg.extAlu ∧ 255 < s.pc.toNat + 1 ∨
  s.byteAt 0 ∈ rrOpcodes s.cfg.extAlu ∧ 255 < s.pc.toNat + 2 ∨
  s.byteAt 0 ∈ riOpcodes ∧ 255 < s.pc.toNat + 2

/-- Only a defined opcode declares operands. -/
theorem State.OperandPast.defined {s : State} (h : s.OperandPast) : s.byteAt 0 ∈ definedOpcodes s.cfg.extAlu := by
  rcases h with ⟨h, -⟩ | ⟨h, -⟩ | ⟨h, -⟩ <;> simp [definedOpcodes, h]

/-- No declared operand lies past address 255 where PC plus their count does not. -/
theorem State.not_operandPast_of_le {s : State} (inside : s.pc.toNat + (s.byteAt 0 >>> 6).toNat ≤ 255) : ¬ s.OperandPast := by
  rintro (⟨h, past⟩ | ⟨h, past⟩ | ⟨h, past⟩)
  · rw [operandCount_of_mem_rOpcodes h] at inside
    omega
  · rw [operandCount_of_mem_rrOpcodes h] at inside
    omega
  · rw [operandCount_of_mem_riOpcodes h] at inside
    omega

/-! ## The fetched instruction -/

/-- The format of a fetched instruction (R90): its operand bytes are those after PC, and all but an immediate name registers. -/
theorem Fetched.format {s : State} {i : Instr} (f : Fetched s i) :
    (s.byteAt 0 ∈ zOpcodes ∧ i.operandBytes = [] ∧ i.regOperands = []) ∨
    (s.byteAt 0 ∈ rOpcodes s.cfg.extAlu ∧ i.operandBytes = [s.byteAt 1] ∧ i.regOperands = [s.byteAt 1]) ∨
    (s.byteAt 0 ∈ rrOpcodes s.cfg.extAlu ∧ i.operandBytes = [s.byteAt 1, s.byteAt 2] ∧
      i.regOperands = [s.byteAt 1, s.byteAt 2]) ∨
    (s.byteAt 0 ∈ riOpcodes ∧ i.operandBytes = [s.byteAt 1, s.byteAt 2] ∧ i.regOperands = [s.byteAt 1]) := by
  obtain ⟨opcode, -, enabled, bytes⟩ := f
  rw [opcode]
  cases i
  case hlt | ret => exact .inl ⟨by decide, rfl, rfl⟩
  case prn | push | pop | call | jmp | jeq | jne =>
    obtain rfl := bytes
    exact .inr (.inl ⟨by simp [rOpcodes, Instr.opcode], rfl, rfl⟩)
  case not =>
    obtain rfl := bytes
    exact .inr (.inl ⟨by simp [rOpcodes, Instr.opcode, enabled rfl], rfl, rfl⟩)
  case ldi =>
    obtain ⟨rfl, rfl⟩ := bytes
    exact .inr (.inr (.inr ⟨by simp [riOpcodes, Instr.opcode], rfl, rfl⟩))
  case mul | add | cmp =>
    obtain ⟨rfl, rfl⟩ := bytes
    exact .inr (.inr (.inl ⟨by simp [rrOpcodes, Instr.opcode], rfl, rfl⟩))
  all_goals
    obtain ⟨rfl, rfl⟩ := bytes
    exact .inr (.inr (.inl ⟨by simp [rrOpcodes, Instr.opcode, enabled rfl], rfl, rfl⟩))

/-- The operand slots hold the operand bytes of the fetched instruction (40_execute_cycle.md R132). -/
theorem Fetched.slot {s : State} {i : Instr} (f : Fetched s i) {k : Nat} {b : Byte} (h : i.operandBytes[k]? = some b) :
    s.slot (k + 1) = some b := by
  have declared : k < i.operandBytes.length := (List.getElem?_eq_some_iff.mp h).1
  have inside : s.pc.toNat + (k + 1) ≤ 255 := by
    have fits := f.2.1
    rw [encode, List.length_cons] at fits
    omega
  rw [State.slot_byteAt inside, ← h]
  rcases f.format with ⟨-, operands, -⟩ | ⟨-, operands, -⟩ | ⟨-, operands, -⟩ | ⟨-, operands, -⟩ <;> rw [operands] at declared ⊢
  · cases declared
  · match k, declared with
    | 0, _ => rfl
  all_goals
    match k, declared with
    | 0, _ => rfl
    | 1, _ => rfl

/-- A running step decodes exactly the instruction whose bytes lie at PC (R131 to R133). -/
theorem State.fetchDecode_eq_ok_iff {s : State} {i : Instr} : s.fetchDecode = .ok i ↔ Fetched s i := by
  constructor
  · intro d
    rcases s.fetchDecode_cases with ⟨-, e⟩ | ⟨-, -, e⟩ | ⟨-, -, -, e⟩ | ⟨-, -, j, e, f⟩ <;> rw [d] at e <;> cases e
    exact f
  · intro f
    have ⟨opcode, fits, enabled, _⟩ := f
    rw [encode_length] at fits
    rw [State.fetchDecode_of_some (State.slot_zero (by omega)), opcode,
      decode_of_slots_le (decode_opcode_operandBytes enabled) (fun _ => f.slot) (fun _ => f.slot)]
    rfl

/-- All bytes of the fetched instruction lie in memory, as many as its opcode declares. -/
theorem Fetched.inside {s : State} {i : Instr} (f : Fetched s i) : s.pc.toNat + (s.byteAt 0 >>> 6).toNat ≤ 255 := by
  obtain ⟨opcode, fits, -⟩ := f
  rw [encode_length, ← opcode] at fits
  omega

/-- An instruction is fetched where the opcode is defined and the operand bytes it declares lie in memory (R131 to R133). -/
theorem exists_fetched {s : State} (defined : s.byteAt 0 ∈ definedOpcodes s.cfg.extAlu)
    (inside : s.pc.toNat + (s.byteAt 0 >>> 6).toNat ≤ 255) : ∃ i, Fetched s i := by
  rcases s.fetchDecode_cases with ⟨past, -⟩ | ⟨-, undefined, -⟩ | ⟨-, -, past, -⟩ | ⟨-, -, i, -, f⟩
  · omega
  · exact absurd defined undefined
  · exact absurd past (State.not_operandPast_of_le inside)
  · exact ⟨i, f⟩

/-- In format R, with one register operand. -/
theorem exists_fetched_of_mem_rOpcodes {s : State} (h : s.byteAt 0 ∈ rOpcodes s.cfg.extAlu) (inside : s.pc.toNat + 1 ≤ 255) :
    ∃ i, Fetched s i ∧ i.regOperands = [s.byteAt 1] := by
  have count := operandCount_of_mem_rOpcodes h
  obtain ⟨i, f⟩ := exists_fetched (by simp [definedOpcodes, h]) (count.symm ▸ inside)
  refine ⟨i, f, ?_⟩
  rcases f.format with ⟨z, -⟩ | ⟨-, -, regs⟩ | ⟨rr, -⟩ | ⟨ri, -⟩
  · cases count.symm.trans (operandCount_of_mem_zOpcodes z)
  · exact regs
  · cases count.symm.trans (operandCount_of_mem_rrOpcodes rr)
  · cases count.symm.trans (operandCount_of_mem_riOpcodes ri)

/-- In format RR, with two register operands. -/
theorem exists_fetched_of_mem_rrOpcodes {s : State} (h : s.byteAt 0 ∈ rrOpcodes s.cfg.extAlu) (inside : s.pc.toNat + 2 ≤ 255) :
    ∃ i, Fetched s i ∧ i.regOperands = [s.byteAt 1, s.byteAt 2] := by
  have count := operandCount_of_mem_rrOpcodes h
  obtain ⟨i, f⟩ := exists_fetched (by simp [definedOpcodes, h]) (count.symm ▸ inside)
  refine ⟨i, f, ?_⟩
  rcases f.format with ⟨z, -⟩ | ⟨r, -⟩ | ⟨-, -, regs⟩ | ⟨ri, -⟩
  · cases count.symm.trans (operandCount_of_mem_zOpcodes z)
  · cases count.symm.trans (operandCount_of_mem_rOpcodes r)
  · exact regs
  · exact absurd h (not_mem_rrOpcodes_of_mem_riOpcodes ri)

/-- In format RI, LDI. -/
theorem fetched_ldi_of_mem_riOpcodes {s : State} (h : s.byteAt 0 ∈ riOpcodes) (inside : s.pc.toNat + 2 ≤ 255) :
    Fetched s (.ldi (s.byteAt 1) (s.byteAt 2)) :=
  ⟨List.mem_singleton.mp h, Nat.succ_le_succ inside, nofun, rfl, rfl⟩

end Sys2Proof.Machine
end

section
/-! PROOFS. The halt causes (60_exceptions.md R285 to R290): exactly which instruction raises which code, and the obligations O32 to O37. -/

namespace Sys2Proof.Machine

/-! ## Which code an instruction raises -/

/-- The fetch changes no register. -/
@[simp] theorem State.regAt_latched (s : State) (b : Byte) : s.latched.regAt b = s.regAt b := by simp [State.regAt]

/-- The fetch changes nothing an instruction's checks read. -/
@[simp] theorem haltCodeOf_latched (i : Instr) (s : State) : haltCodeOf i s.latched = haltCodeOf i s := by
  simp only [haltCodeOf, ownHaltCode, State.regAt_latched, State.latched_cfg, State.latched_pc, State.reg_latched,
    State.memRead_latched]

/-- No instruction raises ERR_MEM_ADDR: that check is over before its rule begins (60_exceptions.md R292). -/
theorem haltCodeOf_ne_memAddr (i : Instr) (s : State) : haltCodeOf i s ≠ some .memAddr := by
  unfold haltCodeOf ownHaltCode
  cases i <;> simp only <;> split_ifs <;> simp

/-- Past the operand checks no instruction raises ERR_REG_INDEX (R292). -/
theorem ownHaltCode_ne_regIndex (i : Instr) (s : State) : ownHaltCode i s ≠ some .regIndex := by
  unfold ownHaltCode
  cases i <;> simp only <;> split_ifs <;> simp

/-- ERR_REG_INDEX is raised exactly for an illegal register operand (40_execute_cycle.md R134). -/
theorem haltCodeOf_eq_regIndex_iff {i : Instr} {s : State} : haltCodeOf i s = some .regIndex ↔ i.wellFormed = false := by
  unfold haltCodeOf
  cases i.wellFormed <;> simp [ownHaltCode_ne_regIndex i s]

/-- Any other code is raised only with legal register operands. -/
theorem haltCodeOf_eq_some_iff {i : Instr} {s : State} {c : HaltCode} (other : c ≠ .regIndex) :
    haltCodeOf i s = some c ↔ i.wellFormed = true ∧ ownHaltCode i s = some c := by
  unfold haltCodeOf
  cases i.wellFormed <;> simp [other.symm]

/-- A running step halts with a code that is none of the fetch's and the decoder's exactly where an instruction is fetched that raises
it. -/
theorem haltsWith_iff_fetched {s : State} (r : s.runs) {c : HaltCode} (fetchOk : c ≠ .memAddr) (decodeOk : c ≠ .unknownOpcode) :
    HaltsWith s c.bits ↔ ∃ i, Fetched s i ∧ haltCodeOf i s = some c := by
  cases d : s.fetchDecode with
  | ok i =>
    rw [haltsWith_iff_of_decoded r d, haltCodeOf_latched]
    refine ⟨fun raised => ⟨i, State.fetchDecode_eq_ok_iff.mp d, raised⟩, fun ⟨j, f, raised⟩ => ?_⟩
    cases d.symm.trans (State.fetchDecode_eq_ok_iff.mpr f)
    exact raised
  | error e =>
    obtain ⟨c', op⟩ := e
    rw [haltsWith_iff_of_undecoded r d]
    refine ⟨fun same => ?_, fun ⟨j, f, _⟩ => ?_⟩
    · rcases s.fetchDecode_cases with ⟨-, e⟩ | ⟨-, -, e⟩ | ⟨-, -, -, e⟩ | ⟨-, -, j, e, f⟩ <;> rw [d] at e <;> cases e
      · exact absurd same.symm fetchOk
      · exact absurd same.symm decodeOk
      · exact absurd same.symm fetchOk
    · rw [State.fetchDecode_eq_ok_iff.mpr f] at d
      cases d

/-- The operand check of an instruction with one register operand. -/
theorem wellFormed_iff_of_one {i : Instr} {ra : Byte} (operands : i.regOperands = [ra]) :
    i.wellFormed = true ↔ ra.toNat ≤ 7 := by
  simp [Instr.wellFormed, operands, isRegByte, Nat.lt_succ_iff]

/-- The operand check of an instruction with two register operands. -/
theorem wellFormed_iff_of_two {i : Instr} {ra rb : Byte} (operands : i.regOperands = [ra, rb]) :
    i.wellFormed = true ↔ ra.toNat ≤ 7 ∧ rb.toNat ≤ 7 := by
  simp [Instr.wellFormed, operands, isRegByte, Nat.lt_succ_iff]

/-- A legal operand byte whose register holds a byte is the byte of a register that holds it. -/
theorem regAt_eq_iff {s : State} {b v : Byte} : b.toNat ≤ 7 ∧ s.regAt b = v ↔ ∃ r, b = regByte r ∧ s.reg r = v := by
  constructor
  · rintro ⟨legal, holds⟩
    rw [State.regAt, dif_pos (Nat.lt_succ_of_le legal)] at holds
    exact ⟨_, (BitVec.eq_of_toNat_eq (regByte_toNat _)).symm, holds⟩
  · rintro ⟨r, rfl, holds⟩
    have legal : (regByte r).toNat < 8 := (regByte_toNat r).trans_lt r.isLt
    refine ⟨Nat.le_of_lt_succ legal, ?_⟩
    rw [State.regAt, dif_pos legal, ← holds]
    exact congrArg s.reg (Fin.ext (regByte_toNat r))

/-- ERR_SP_RANGE is raised exactly by the four stack instructions, each by its own test on SP (R230, R231, R250, R251). -/
theorem haltCodeOf_eq_spRange_iff {i : Instr} {s : State} :
    haltCodeOf i s = some .spRange ↔
      (∃ ra, i = .push ra ∧ ra.toNat ≤ 7 ∧ s.reg 7 = 0) ∨
      (∃ ra, i = .call ra ∧ ra.toNat ≤ 7 ∧ s.pc.toNat + 2 ≤ 255 ∧ s.reg 7 = 0) ∨
      (∃ ra, i = .pop ra ∧ ra.toNat ≤ 7 ∧ (if ra.toNat = 7 then s.memRead (s.reg 7) else s.reg 7) = 255) ∨
      (i = .ret ∧ s.reg 7 = 255) := by
  rw [haltCodeOf_eq_some_iff (by decide)]
  cases i
  case push ra => simp [wellFormed_iff_of_one (i := .push ra) rfl, ownHaltCode, Instr.isExt, ite_eq_iff]
  case pop ra => simp [wellFormed_iff_of_one (i := .pop ra) rfl, ownHaltCode, Instr.isExt]
  case call ra => simp [wellFormed_iff_of_one (i := .call ra) rfl, ownHaltCode, Instr.isExt, ite_eq_iff]
  case ret => simp [Instr.wellFormed, Instr.regOperands, ownHaltCode, Instr.isExt, ite_eq_iff]
  all_goals simp [ownHaltCode, Instr.isExt, ite_eq_iff]

/-- ERR_RET_ADDR is raised exactly by CALL where its return address would not fit a byte (R250). -/
theorem haltCodeOf_eq_retAddr_iff {i : Instr} {s : State} :
    haltCodeOf i s = some .retAddr ↔ ∃ ra, i = .call ra ∧ ra.toNat ≤ 7 ∧ 255 < s.pc.toNat + 2 := by
  rw [haltCodeOf_eq_some_iff (by decide)]
  cases i
  case call ra =>
    simp [wellFormed_iff_of_one (i := .call ra) rfl, ownHaltCode, Instr.isExt, ite_eq_iff]
    omega
  all_goals simp [ownHaltCode, Instr.isExt, ite_eq_iff]

/-- ERR_ALU_UNSUPPORTED is raised exactly by an extension instruction without `EXT_ALU` (R182). -/
theorem haltCodeOf_eq_aluUnsupported_iff {i : Instr} {s : State} :
    haltCodeOf i s = some .aluUnsupported ↔ i.wellFormed = true ∧ i.isExt = true ∧ s.cfg.extAlu = false := by
  rw [haltCodeOf_eq_some_iff (by decide)]
  cases i <;> simp [ownHaltCode, Instr.isExt, ite_eq_iff]

/-- ERR_DIV_ZERO is raised exactly by DIV and MOD under `EXT_ALU` where the second register holds 0 (R201, R202). -/
theorem haltCodeOf_eq_divZero_iff {i : Instr} {s : State} :
    haltCodeOf i s = some .divZero ↔
      s.cfg.extAlu = true ∧ ∃ ra rb, (i = .div ra rb ∨ i = .mod ra rb) ∧ ra.toNat ≤ 7 ∧ ∃ r, rb = regByte r ∧ s.reg r = 0 := by
  rw [haltCodeOf_eq_some_iff (by decide)]
  simp only [← regAt_eq_iff]
  cases i
  case div ra rb => simp [wellFormed_iff_of_two (i := .div ra rb) rfl, ownHaltCode, Instr.isExt, ite_eq_iff, and_assoc, and_left_comm]
  case mod ra rb => simp [wellFormed_iff_of_two (i := .mod ra rb) rfl, ownHaltCode, Instr.isExt, ite_eq_iff, and_assoc, and_left_comm]
  all_goals simp [ownHaltCode, Instr.isExt, ite_eq_iff]

/-! ## The obligations -/

/-- A running step that halts on a fetched opcode is the halt entry with that opcode, from the fetched state (R281). -/
theorem step_halts_with_opcode {s t : State} (r : s.runs) (inside : s.pc.toNat ≤ 255) (h : step s = .next t)
    (halted : t.engine = .halted) : ∃ c, t = s.latched.enterHalted c (s.byteAt 0) := by
  rcases s.fetchDecode_cases with ⟨past, -⟩ | ⟨-, -, d⟩ | ⟨-, -, -, d⟩ | ⟨-, -, i, d, f⟩
  · omega
  · rw [step_undecoded r d] at h
    cases h
    exact ⟨_, rfl⟩
  · rw [step_undecoded r d] at h
    cases h
    exact ⟨_, rfl⟩
  · rw [step_decoded r d] at h
    rcases exec_keeps_engine_or_halts h with going | ⟨c, e⟩
    · rw [State.latched_engine, r.1, halted] at going
      cases going
    · exact ⟨c, f.1 ▸ e⟩

/-- A running step halts with ERR_REG_INDEX exactly where all declared operand bytes lie in memory and one that names a
register is over 7. -/
theorem haltsWith_regIndex_iff {s : State} (r : s.runs) :
    HaltsWith s HaltCode.regIndex.bits ↔ s.pc.toNat ≤ 255 ∧
      ((s.byteAt 0 ∈ rOpcodes s.cfg.extAlu ∧ s.pc.toNat + 1 ≤ 255 ∧ 7 < (s.byteAt 1).toNat) ∨
       (s.byteAt 0 ∈ rrOpcodes s.cfg.extAlu ∧ s.pc.toNat + 2 ≤ 255 ∧ (7 < (s.byteAt 1).toNat ∨ 7 < (s.byteAt 2).toNat)) ∨
       (s.byteAt 0 ∈ riOpcodes ∧ s.pc.toNat + 2 ≤ 255 ∧ 7 < (s.byteAt 1).toNat)) := by
  simp only [haltsWith_iff_fetched r (c := .regIndex) (by decide) (by decide), haltCodeOf_eq_regIndex_iff, ← Bool.not_eq_true]
  constructor
  · rintro ⟨i, f, illegal⟩
    have inside := f.inside
    refine ⟨by omega, ?_⟩
    rcases f.format with ⟨-, -, regs⟩ | ⟨h, -, regs⟩ | ⟨h, -, regs⟩ | ⟨h, -, regs⟩
    · exact absurd (by simp [Instr.wellFormed, regs]) illegal
    · rw [operandCount_of_mem_rOpcodes h] at inside
      rw [wellFormed_iff_of_one regs] at illegal
      exact .inl ⟨h, inside, by omega⟩
    · rw [operandCount_of_mem_rrOpcodes h] at inside
      rw [wellFormed_iff_of_two regs] at illegal
      exact .inr (.inl ⟨h, inside, by omega⟩)
    · rw [operandCount_of_mem_riOpcodes h] at inside
      rw [wellFormed_iff_of_one regs] at illegal
      exact .inr (.inr ⟨h, inside, by omega⟩)
  · rintro ⟨-, ⟨h, inside, illegal⟩ | ⟨h, inside, illegal⟩ | ⟨h, inside, illegal⟩⟩
    · obtain ⟨i, f, regs⟩ := exists_fetched_of_mem_rOpcodes h inside
      exact ⟨i, f, by rw [wellFormed_iff_of_one regs]; omega⟩
    · obtain ⟨i, f, regs⟩ := exists_fetched_of_mem_rrOpcodes h inside
      exact ⟨i, f, by rw [wellFormed_iff_of_two regs]; omega⟩
    · exact ⟨_, fetched_ldi_of_mem_riOpcodes h inside, by rw [wellFormed_iff_of_one rfl]; omega⟩

/-- Settles O32: `haltsWith_regIndex_iff` says when, and a halt on a fetched opcode records it with PC and keeps memory. -/
theorem registerIndexHalts : Obligations.RegisterIndexHalts := by
  intro s r
  refine ⟨haltsWith_regIndex_iff r, fun t h code halted => ?_⟩
  have inside := ((haltsWith_regIndex_iff r).mp ⟨t, h, halted, code⟩).1
  obtain ⟨c, rfl⟩ := step_halts_with_opcode r inside h halted
  simp

/-- Settles O33: the code is raised by the fetch and by the operand-address check, and by nothing after them. -/
theorem memoryAddressHalts : Obligations.MemoryAddressHalts := by
  intro s r
  change HaltsWith s HaltCode.memAddr.bits ↔ 255 < s.pc.toNat ∨ s.OperandPast
  rcases s.fetchDecode_cases with ⟨past, d⟩ | ⟨inside, undefined, d⟩ | ⟨-, -, past, d⟩ | ⟨inside, -, i, d, f⟩
  · simp [haltsWith_iff_of_undecoded r d, past]
  · simp [haltsWith_iff_of_undecoded r d, inside, mt State.OperandPast.defined undefined]
  · simp [haltsWith_iff_of_undecoded r d, show s.OperandPast from past]
  · simp [haltsWith_iff_of_decoded r d, haltCodeOf_ne_memAddr, inside, State.not_operandPast_of_le f.inside]

/-- Settles O34: each of the four instructions is fetched where its bytes lie at PC, and raises the code by its own test on SP. -/
theorem stackPointerRangeHalts : Obligations.StackPointerRangeHalts := by
  intro s r
  refine (haltsWith_iff_fetched r (c := .spRange) (by decide) (by decide)).trans
    ⟨fun ⟨i, f, raised⟩ => ?_, fun ⟨inside, h⟩ => ?_⟩
  · have inside : s.pc.toNat ≤ 255 := Nat.le_of_add_right_le f.inside
    obtain ⟨opcode, fits, -, bytes⟩ := f
    refine ⟨inside, ?_⟩
    rcases haltCodeOf_eq_spRange_iff.mp raised with
      ⟨ra, rfl, legal, empty⟩ | ⟨ra, rfl, legal, returns, empty⟩ | ⟨ra, rfl, legal, top⟩ | ⟨rfl, top⟩
    · obtain rfl := bytes
      exact .inl ⟨opcode, Nat.le_of_succ_le_succ fits, legal, empty⟩
    · obtain rfl := bytes
      exact .inr (.inl ⟨opcode, returns, legal, empty⟩)
    · obtain rfl := bytes
      exact .inr (.inr (.inl ⟨opcode, Nat.le_of_succ_le_succ fits, legal, top⟩))
    · exact .inr (.inr (.inr ⟨opcode, top⟩))
  · rcases h with ⟨opcode, fits, legal, empty⟩ | ⟨opcode, returns, legal, empty⟩ | ⟨opcode, fits, legal, top⟩ | ⟨opcode, top⟩
    · exact ⟨.push (s.byteAt 1), ⟨opcode, Nat.succ_le_succ fits, nofun, rfl⟩,
        haltCodeOf_eq_spRange_iff.mpr (.inl ⟨_, rfl, legal, empty⟩)⟩
    · exact ⟨.call (s.byteAt 1), ⟨opcode, returns.trans (by decide), nofun, rfl⟩,
        haltCodeOf_eq_spRange_iff.mpr (.inr (.inl ⟨_, rfl, legal, returns, empty⟩))⟩
    · exact ⟨.pop (s.byteAt 1), ⟨opcode, Nat.succ_le_succ fits, nofun, rfl⟩,
        haltCodeOf_eq_spRange_iff.mpr (.inr (.inr (.inl ⟨_, rfl, legal, top⟩)))⟩
    · exact ⟨.ret, ⟨opcode, Nat.succ_le_succ inside, nofun, trivial⟩,
        haltCodeOf_eq_spRange_iff.mpr (.inr (.inr (.inr ⟨rfl, top⟩)))⟩

/-- Settles O35: the return address is over 255 only at 254 and above, and CALL's operand byte lies in memory only at 254 and below. -/
theorem returnAddressHalts : Obligations.ReturnAddressHalts := by
  intro s r
  refine (haltsWith_iff_fetched r (c := .retAddr) (by decide) (by decide)).trans
    ⟨fun ⟨i, f, raised⟩ => ?_, fun ⟨last, opcode, legal⟩ => ?_⟩
  · obtain ⟨ra, rfl, legal, outside⟩ := haltCodeOf_eq_retAddr_iff.mp raised
    obtain ⟨opcode, fits, -, rfl⟩ := f
    exact ⟨Nat.le_antisymm (Nat.le_of_add_le_add_right (b := 2) fits) (Nat.le_of_add_le_add_right (b := 2) outside), opcode, legal⟩
  · refine ⟨.call (s.byteAt 1), ⟨opcode, Nat.add_le_add_right last.le 2, nofun, rfl⟩,
      haltCodeOf_eq_retAddr_iff.mpr ⟨_, rfl, legal, ?_⟩⟩
    omega

/-- Settles O36: the ALU's guard is the first check after the operands, and no extension instruction is fetched without `EXT_ALU`. -/
theorem unsupportedTagUnreachable : Obligations.UnsupportedTagUnreachable := by
  refine ⟨fun i s ext legal off => ?_, fun s r h => ?_⟩
  · have raises := exec_raises i s
    rw [haltCodeOf_eq_aluUnsupported_iff.mpr ⟨legal, ext, off⟩] at raises
    exact raises
  · obtain ⟨i, ⟨-, -, enabled, -⟩, raised⟩ := (haltsWith_iff_fetched r (c := .aluUnsupported) (by decide) (by decide)).mp h
    obtain ⟨-, ext, off⟩ := haltCodeOf_eq_aluUnsupported_iff.mp raised
    exact Bool.false_ne_true (off.symm.trans (enabled ext))

/-- Settles O37: DIV and MOD are fetched only with their bytes in memory, and test the divisor once their operands are legal. -/
theorem divideByZeroHalts : Obligations.DivideByZeroHalts := by
  intro s r
  refine (haltsWith_iff_fetched r (c := .divZero) (by decide) (by decide)).trans
    ⟨fun ⟨i, f, raised⟩ => ?_, fun ⟨on, fits, opcode, legal, divisor⟩ => ?_⟩
  · obtain ⟨on, ra, rb, rfl | rfl, legal, divisor⟩ := haltCodeOf_eq_divZero_iff.mp raised
    · obtain ⟨opcode, fits, -, rfl, rfl⟩ := f
      exact ⟨on, Nat.le_of_succ_le_succ fits, .inl opcode, legal, divisor⟩
    · obtain ⟨opcode, fits, -, rfl, rfl⟩ := f
      exact ⟨on, Nat.le_of_succ_le_succ fits, .inr opcode, legal, divisor⟩
  · rcases opcode with opcode | opcode
    · exact ⟨.div (s.byteAt 1) (s.byteAt 2), ⟨opcode, Nat.succ_le_succ fits, fun _ => on, rfl, rfl⟩,
        haltCodeOf_eq_divZero_iff.mpr ⟨on, _, _, .inl rfl, legal, divisor⟩⟩
    · exact ⟨.mod (s.byteAt 1) (s.byteAt 2), ⟨opcode, Nat.succ_le_succ fits, fun _ => on, rfl, rfl⟩,
        haltCodeOf_eq_divZero_iff.mpr ⟨on, _, _, .inr rfl, legal, divisor⟩⟩

end Sys2Proof.Machine
end

section
/-! PROOFS. The reset state and the start of a run (70_reset_and_hazards.md R321 to R324): the registers and memory after reset, what
`run` does in READY, the step on the byte 0x00, and the obligations O50 and O54. -/

namespace Sys2Proof.Machine

/-- Memory is all 0 after reset (R321). -/
@[simp] theorem State.memRead_resetWith (c : Config) (a : Byte) : (State.resetWith c).memRead a = 0 := rfl

/-- R0 to R5 hold `REG_RESET` after reset (R321). -/
theorem State.resetWith_regs_general (c : Config) (k : Fin 6) : (State.resetWith c).regs[k.val] = c.regReset[k.val] := by
  fin_cases k <;> rfl

/-- Settles O50: memory and the six general registers by their lemmas, every other value as the reset state lists it. -/
theorem resetValues : Obligations.ResetValues :=
  fun c =>
    ⟨State.memRead_resetWith c, State.resetWith_regs_general c, rfl, rfl, rfl, rfl, rfl, rfl, rfl, rfl, rfl⟩

/-- The state in RUNNING that differs from `s` in the engine state and the ports only, which assert `run` alone. -/
def State.started (s : State) : State := { s.drive .start with engine := .running }

/-- `run` alone in READY starts the block and changes nothing else (R324). -/
theorem step_start {s : State} (ready : s.engine = .ready) : step (s.drive .start) = .next s.started :=
  step_ready rfl ready

/-- The byte 0x00, which every cell holds that was not loaded, is no opcode (R323). -/
theorem zero_notMem_definedOpcodes (ext : Bool) : (0 : Byte) ∉ definedOpcodes ext := by
  cases ext <;> decide

/-- A running step at a byte 0x00 halts with ERR_UNKNOWN_OPCODE (R323). -/
theorem step_of_byteAt_zero {s : State} (r : s.runs) (inside : s.pc.toNat ≤ 255) (zero : s.byteAt 0 = 0) :
    step s = .next (s.latched.haltedWith 1 0) :=
  zero ▸ step_of_undefined r inside (zero ▸ zero_notMem_definedOpcodes s.cfg.extAlu)

/-- Settles O54: the started reset state has PC 0 and the byte 0x00 there, and the fetch and the halt keep registers, memory, PC and the
output stream. -/
theorem emptyImageHalts : Obligations.EmptyImageHalts := by
  intro c
  have halts : step (State.resetWith c).started = .next ((State.resetWith c).started.latched.haltedWith 1 0) :=
    step_of_byteAt_zero ⟨rfl, rfl⟩ (Nat.zero_le 255) (State.memRead_resetWith c 0)
  exact ⟨_, _, step_start rfl, rfl, rfl, halts, rfl, rfl, State.latched_pc _, rfl, State.latched_regs _, State.latched_mem _,
    State.latched_pc _, State.latched_out _, State.latched_outPort _⟩

end Sys2Proof.Machine
end

section
/-! PROOFS. The encoding (30_encoding.md R90 to R99): bytes decode to an instruction exactly where they begin with its encoding, and the
obligations O25 to O28. -/

namespace Sys2Proof.Machine

/-! ## From an instruction to its bytes -/

/-- Settles O26: the decoder gives an instruction back from exactly its own bytes, and bytes appended to them change no declared slot. -/
theorem decodeOfEncodeIsIdentity : Obligations.DecodeOfEncodeIsIdentity := by
  intro i ext rest enabled
  have kept {k : Nat} (b : Byte) (h : i.operandBytes[k]? = some b) : (i.operandBytes ++ rest)[k]? = some b :=
    (List.getElem?_append_left (List.getElem?_eq_some_iff.mp h).1).trans h
  exact decode_of_slots_le (decode_opcode_operandBytes enabled) kept kept

/-- Settles O25: each sequence is the encoding of its instruction, with no byte after it. -/
theorem writtenWordsDecode : Obligations.WrittenWordsDecode :=
  ⟨decodeOfEncodeIsIdentity .hlt false [] nofun, decodeOfEncodeIsIdentity (.ldi 0 8) false [] nofun,
    decodeOfEncodeIsIdentity (.add 1 2) false [] nofun, decodeOfEncodeIsIdentity (.push 3) false [] nofun,
    decodeOfEncodeIsIdentity (.call 4) false [] nofun, decodeOfEncodeIsIdentity (.shl 5 6) true [] fun _ => rfl,
    decodeOfEncodeIsIdentity (.not 7) true [] fun _ => rfl⟩

/-! ## From bytes to the instruction -/

/-- A row's opcode and operand bytes encode its instruction, an extension's only where it is enabled (R96, R97). -/
theorem encode_of_findShape {ext : Bool} {op : Byte} {sh : Shape} (h : findShape ext op = some sh) :
    match sh with
    | .z i => encode i = [op] ∧ (i.isExt = true → ext = true)
    | .r mk => ∀ a, encode (mk a) = [op, a] ∧ ((mk a).isExt = true → ext = true)
    | .rr mk | .ri mk => ∀ a b, encode (mk a b) = [op, a, b] ∧ ((mk a b).isExt = true → ext = true) := by
  rcases findShape_cases ext op with ⟨-, none⟩ | ⟨-, sh', some, row⟩
  · rw [none] at h
    cases h
  · obtain rfl := Option.some.inj (some.symm.trans h)
    rcases row with ⟨rfl, rfl⟩ | ⟨rfl, rfl⟩ | ⟨rfl, rfl⟩ | ⟨rfl, rfl⟩ | ⟨rfl, rfl⟩ | ⟨rfl, rfl⟩ | ⟨rfl, rfl⟩ | ⟨rfl, rfl⟩ | ⟨rfl, rfl⟩ |
      ⟨rfl, rfl⟩ | ⟨rfl, rfl⟩ | ⟨rfl, rfl⟩ | ⟨rfl, rfl⟩ | ⟨rfl, rfl, rfl⟩ | ⟨rfl, rfl, rfl⟩ | ⟨rfl, rfl, rfl⟩ | ⟨rfl, rfl, rfl⟩ |
      ⟨rfl, rfl, rfl⟩ | ⟨rfl, rfl, rfl⟩ | ⟨rfl, rfl, rfl⟩ | ⟨rfl, rfl, rfl⟩ | ⟨rfl, rfl, rfl⟩ <;>
      simp [encode, Instr.opcode, Instr.operandBytes, Instr.isExt]

/-- Bytes that decode to an instruction begin with its encoding, and the instruction is enabled (R98, R99). -/
theorem encode_prefix_of_decodeBytes {ext : Bool} {bs : List Byte} {i : Instr} (h : decodeBytes ext bs = .ok i) :
    encode i <+: bs ∧ (i.isExt = true → ext = true) := by
  match bs with
  | op :: rest =>
    rw [decodeBytes, decode] at h
    cases e : findShape ext op with
    | none => simp [e] at h
    | some sh =>
      have row := encode_of_findShape e
      rw [e] at h
      cases sh with
      | z j =>
        cases h
        exact ⟨row.1 ▸ List.prefix_append [op] rest, row.2⟩
      | r mk =>
        match rest, h with
        | a :: rest, h =>
          cases h
          exact ⟨(row a).1 ▸ List.prefix_append [op, a] rest, (row a).2⟩
      | rr mk | ri mk =>
        match rest, h with
        | a :: b :: rest, h =>
          cases h
          exact ⟨(row a b).1 ▸ List.prefix_append [op, a, b] rest, (row a b).2⟩

/-- Settles O27: two byte sequences that begin with the encoding of one instruction agree on its bytes. -/
theorem encodingIsUnique : Obligations.EncodingIsUnique := by
  intro i ext bs h
  obtain ⟨begins, enabled⟩ := encode_prefix_of_decodeBytes h
  refine ⟨begins, enabled, fun bs' h' => ?_⟩
  rw [← List.prefix_iff_eq_take.mp (encode_prefix_of_decodeBytes h').1, ← List.prefix_iff_eq_take.mp begins]

/-! ## The step on an instruction's bytes -/

/-- Settles O28: the step runs the instruction, and the fetch latches its opcode and the two slots. -/
theorem stepRunsDecodedInstruction : Obligations.StepRunsDecodedInstruction := by
  intro s i r code _ enabled
  have zero : s.slot 0 = some i.opcode := slot_of_codeIs code rfl
  refine ⟨stepRuns_encode enabled r code, ?_⟩
  rw [State.latched, zero]
  rfl

end Sys2Proof.Machine
end

section
/-! PROOFS. What an instruction changes (10_state.md, 20_memory.md R61, 40_execute_cycle.md R136 to R138): the few forms a completed effect
can take, what each leaves alone, and the obligations O30, O38, O40 to O42 and O55. -/

namespace Sys2Proof.Machine

/-! ## The forms of an effect -/

/-- The forms the effect of a completed instruction takes, by what it writes. The 22 clauses of `Effect` fall under these (`Effect.form`), so a
statement about what instructions leave alone needs these cases only. -/
inductive EffectForm : Instr → State → State → Prop where
  /-- One register is written and PC advances: LDI, CMP and the ALU instructions. -/
  | register {i : Instr} {s : State} (r : Reg) (v : Byte) (may : mayWriteReg i r) :
      EffectForm i s ((s.setReg r v).advance (encode i).length)
  /-- PRN. -/
  | print {s : State} (r : Reg) : EffectForm (.prn (regByte r)) s ((s.emit (s.reg r)).advance 2)
  /-- PUSH. -/
  | push {s : State} (ra v : Byte) :
      EffectForm (.push ra) s (((s.setReg 7 (s.reg 7 - 1)).memWrite (s.reg 7 - 1) v).advance 2)
  /-- POP. -/
  | pop {s : State} (r : Reg) (v sp : Byte) : EffectForm (.pop (regByte r)) s (((s.setReg r v).setReg 7 sp).advance 2)
  /-- CALL. -/
  | call {s : State} (ra v target : Byte) :
      EffectForm (.call ra) s (((s.setReg 7 (s.reg 7 - 1)).memWrite (s.reg 7 - 1) v).jump target)
  /-- RET. -/
  | ret {s : State} (sp target : Byte) : EffectForm .ret s ((s.setReg 7 sp).jump target)
  /-- JMP, and a JEQ or JNE that is taken. -/
  | branch {i : Instr} {s : State} (target : Byte) (redirects : i.opcode ∈ redirectOpcodes) : EffectForm i s (s.jump target)
  /-- A JEQ or JNE that is not taken. -/
  | fallThrough {i : Instr} {s : State} (length : (encode i).length = 2) : EffectForm i s (s.advance 2)

/-- Every effect has one of the forms. -/
theorem Effect.form {i : Instr} {s t : State} (h : Effect i s t) : EffectForm i s t := by
  cases i
  case hlt => exact h.elim
  case prn =>
    obtain ⟨r, rfl, rfl⟩ := h
    exact .print r
  case push =>
    obtain ⟨r, rfl, -, rfl⟩ := h
    exact .push _ _
  case pop =>
    obtain ⟨r, rfl, -, rfl⟩ := h
    exact .pop r _ _
  case call =>
    obtain ⟨r, rfl, -, -, rfl⟩ := h
    exact .call _ _ _
  case ret =>
    obtain ⟨-, rfl⟩ := h
    exact .ret _ _
  case jmp =>
    obtain ⟨r, rfl, rfl⟩ := h
    exact .branch _ (by simp [Instr.opcode, redirectOpcodes])
  case jeq =>
    obtain ⟨r, rfl, rfl⟩ := h
    cases s.equalFlag with
    | true => exact .branch _ (by simp [Instr.opcode, redirectOpcodes])
    | false => exact .fallThrough rfl
  case jne =>
    obtain ⟨r, rfl, rfl⟩ := h
    cases s.equalFlag with
    | true => exact .fallThrough rfl
    | false => exact .branch _ (by simp [Instr.opcode, redirectOpcodes])
  case ldi =>
    obtain ⟨r, e, rfl⟩ := h
    exact .register r _ e
  case cmp =>
    obtain ⟨v, rfl⟩ := h
    exact .register 6 v rfl
  all_goals
    obtain ⟨r, v, e, rfl⟩ := h
    exact .register r v e

/-! ## What each form leaves alone -/

section
variable {i : Instr} {s t : State}

/-- No effect changes the latch, the ports, the parameters, the engine state or the halt record. -/
theorem EffectForm.keeps (f : EffectForm i s t) :
    t.latch = s.latch ∧ t.inputs = s.inputs ∧ t.cfg = s.cfg ∧
      t.engine = s.engine ∧ t.haltCode = s.haltCode ∧ t.haltPc = s.haltPc ∧ t.haltOp = s.haltOp := by
  cases f <;> exact ⟨rfl, rfl, rfl, rfl, rfl, rfl, rfl⟩

/-- An effect changes no register that the instruction may not write. -/
theorem EffectForm.reg_of_not_mayWriteReg (f : EffectForm i s t) {q : Reg} (keeps : ¬ mayWriteReg i q) : t.reg q = s.reg q := by
  cases f with
  | register r v may => exact State.reg_setReg_other s r q v fun e => keeps (e ▸ may)
  | print | branch | fallThrough => rfl
  | push | call | ret => exact State.reg_setReg_other s 7 q _ keeps
  | pop r v sp =>
    have other : q ≠ r ∧ q ≠ 7 := ⟨fun e => keeps (.inl (e ▸ rfl)), fun e => keeps (.inr e)⟩
    exact (State.reg_setReg_other _ 7 q sp other.2).trans (State.reg_setReg_other s r q v other.1)

/-- An effect leaves memory alone or writes the one cell the instruction stores to. -/
theorem EffectForm.mem_cases (f : EffectForm i s t) :
    t.mem = s.mem ∨ ∃ a v, storeAddress i s = some a ∧ t.mem = Memory.write s.mem a v := by
  cases f with
  | push ra v | call ra v => exact .inr ⟨_, v, rfl, rfl⟩
  | register | print | pop | ret | branch | fallThrough => exact .inl rfl

/-- An effect is a PRN's and emits its register, or leaves the output stream and the output port alone. -/
theorem EffectForm.out_cases (f : EffectForm i s t) :
    (∃ r, i = .prn (regByte r) ∧ t.out = s.out ++ [s.reg r] ∧ t.outPort = some (s.reg r)) ∨
      (t.out = s.out ∧ t.outPort = s.outPort) := by
  cases f with
  | print r => exact .inl ⟨r, rfl, rfl, rfl⟩
  | register | push | pop | call | ret | branch | fallThrough => exact .inr ⟨rfl, rfl⟩

/-- An effect redirects PC to a byte, or advances it by the instruction's length. -/
theorem EffectForm.pc_cases (f : EffectForm i s t) :
    (i.opcode ∈ redirectOpcodes ∧ ∃ target : Byte, t.pc = target.setWidth 9) ∨
      t.pc = s.pc + BitVec.ofNat 9 (encode i).length := by
  cases f with
  | call ra v target => exact .inl ⟨by simp [Instr.opcode, redirectOpcodes], target, rfl⟩
  | ret sp target => exact .inl ⟨by decide, target, rfl⟩
  | branch target redirects => exact .inl ⟨redirects, target, rfl⟩
  | register | print | push | pop => exact .inr rfl
  | fallThrough length => exact .inr (length ▸ rfl)

end

/-! ## The frames of an instruction -/

/-- Settles O40: an effect keeps the registers outside `mayWriteReg`, and a halt keeps all of them. -/
theorem registerFrame : Obligations.RegisterFrame := by
  refine ⟨fun i s t r h keeps => ?_, fun i s t going h halted => ?_⟩
  · rcases exec_cases h with effect | ⟨c, rfl⟩
    · exact effect.form.reg_of_not_mayWriteReg keeps
    · rfl
  · rcases exec_keeps_engine_or_halts h with same | ⟨c, rfl⟩
    · exact absurd (same.symm.trans halted) going
    · rfl

/-- Settles O41: an effect writes at most the cell of `storeAddress`, and a halt writes none. -/
theorem memoryFrame : Obligations.MemoryFrame := by
  intro i s t a h keeps
  rcases exec_cases h with effect | ⟨c, rfl⟩
  · rcases effect.form.mem_cases with same | ⟨b, v, store, written⟩
    · exact congrArg (Memory.read · a) same
    · have other : a ≠ b := fun e => keeps (e ▸ store)
      rw [State.memRead, written, Memory.read_write_other _ _ _ _ other, State.memRead]
  · rfl

/-- Settles O42: an effect keeps the latch, the ports, the parameters, the engine state and the halt record; a halt changes the last two
only. -/
theorem otherStateFrame : Obligations.OtherStateFrame := by
  intro i s t h
  rcases exec_cases h with effect | ⟨c, rfl⟩
  · obtain ⟨latch, inputs, cfg, record⟩ := effect.form.keeps
    refine ⟨latch, inputs, cfg, .inr record, fun noPrn => ?_⟩
    rcases effect.form.out_cases with ⟨r, rfl, -⟩ | same
    · exact absurd rfl (noPrn _)
    · exact same
  · exact ⟨rfl, rfl, rfl, .inl ⟨c, rfl⟩, fun _ => ⟨rfl, rfl⟩⟩

/-! ## What a step can do -/

/-- A running step halts from the fetched state, or is the effect of the instruction at PC. -/
theorem step_halts_or_effect {s t : State} (r : s.runs) (h : step s = .next t) :
    (∃ c op, t = s.latched.enterHalted c op) ∨ ∃ i, Fetched s i ∧ Effect i s.latched t := by
  cases d : s.fetchDecode with
  | error e =>
    rw [step_undecoded r d] at h
    cases h
    exact .inl ⟨e.1, e.2, rfl⟩
  | ok i =>
    rw [step_decoded r d] at h
    rcases exec_cases h with effect | ⟨c, e⟩
    · exact .inr ⟨i, State.fetchDecode_eq_ok_iff.mp d, effect⟩
    · exact .inl ⟨c, i.opcode, e⟩

/-- A READY cycle, field by field: `load_we` writes a cell, and `run` starts the run (70_reset_and_hazards.md R322, R324). -/
theorem State.readyCycle_eq (s : State) :
    s.readyCycle = { s with
      mem := if s.inputs.loadWe then Memory.write s.mem s.inputs.loadAddr s.inputs.loadData else s.mem,
      engine := if s.inputs.run then .running else s.engine } := by
  unfold State.readyCycle
  cases s.inputs.run <;> cases s.inputs.loadWe <;> rfl

/-- Every step is a reset, a READY cycle, a halted block's rest, or a running step. -/
theorem step_cases {s t : State} (h : step s = .next t) :
    (s.inputs.rst = true ∧ t = s.onRst) ∨
    (s.inputs.rst = false ∧ s.engine = .ready ∧ t = s.readyCycle) ∨
    (s.inputs.rst = false ∧ s.engine = .halted ∧ t = s) ∨
    (s.runs ∧ ((∃ c op, t = s.latched.enterHalted c op) ∨ ∃ i, Fetched s i ∧ Effect i s.latched t)) := by
  cases rst : s.inputs.rst with
  | true =>
    rw [step_rst rst] at h
    cases h
    exact .inl ⟨rfl, rfl⟩
  | false =>
    cases e : s.engine with
    | ready =>
      rw [step_ready rst e] at h
      cases h
      exact .inr (.inl ⟨rfl, rfl, rfl⟩)
    | halted =>
      rw [step_halted rst e] at h
      cases h
      exact .inr (.inr (.inl ⟨rfl, rfl, rfl⟩))
    | running => exact .inr (.inr (.inr ⟨⟨e, rst⟩, step_halts_or_effect ⟨e, rst⟩ h⟩))

/-- The fetch changes the output port and the latch only (R131, R132). -/
theorem State.latched_eq (s : State) : s.latched = { s with outPort := none, latch := s.latched.latch } := by
  unfold State.latched
  cases s.slot 0 <;> rfl

/-- The fetch leaves the flags as they are. -/
@[simp] theorem State.equalFlag_latched (s : State) : s.latched.equalFlag = s.equalFlag := by
  rw [State.equalFlag_eq, State.latched_regs, State.equalFlag_eq]

/-- Settles O38: the halt entry from the fetched state records the opcode byte, or 0 where the fetch itself faults. -/
theorem haltEntryIsPrecise : Obligations.HaltEntryIsPrecise := by
  intro s t r h halted
  obtain ⟨c, rfl⟩ : ∃ c, t = s.latched.enterHalted c (if s.pc.toNat ≤ 255 then s.byteAt 0 else 0) := by
    by_cases inside : s.pc.toNat ≤ 255
    · rw [if_pos inside]
      exact step_halts_with_opcode r inside h halted
    · rw [step_undecoded r (State.fetchDecode_of_none (State.slot_of_gt (by omega)))] at h
      cases h
      exact ⟨.memAddr, by rw [if_neg inside]⟩
  refine ⟨c.bits_toNat_le, ?_⟩
  rw [State.latched_eq]
  rfl

/-! ## PC -/

/-- An advance that ends at 256 at most is exact: PC has nine bits (10_state.md R27). -/
theorem toNat_pc_add {pc : PcWord} {n : Nat} (fits : pc.toNat + n ≤ 256) : (pc + BitVec.ofNat 9 n).toNat = pc.toNat + n := by
  rw [BitVec.toNat_add, BitVec.toNat_ofNat]
  omega

/-- A PC that is a byte lies inside memory. -/
theorem toNat_setWidth_byte_le (v : Byte) : (v.setWidth 9).toNat ≤ 255 := by
  have := v.isLt
  rw [BitVec.toNat_setWidth]
  omega

/-- The instruction at PC leaves PC in 0 to 256 (R29, R137). -/
theorem Fetched.pc_le_of_effect {s t : State} {i : Instr} (f : Fetched s i) (effect : Effect i s.latched t) : t.pc.toNat ≤ 256 := by
  obtain ⟨-, fits, -⟩ := f
  rcases effect.form.pc_cases with ⟨-, target, e⟩ | e
  · rw [e]
    exact (toNat_setWidth_byte_le target).trans (by decide)
  · rw [e, State.latched_pc, toNat_pc_add fits]
    exact fits

/-- Settles O55: outside RUNNING PC stays or is reset, a halt keeps it, and an instruction whose bytes lie in memory moves it to a byte or
behind itself. -/
theorem pcStaysInRange : Obligations.PcStaysInRange := by
  intro s t inRange h
  rcases step_cases h with ⟨-, rfl⟩ | ⟨-, -, rfl⟩ | ⟨-, -, rfl⟩ | ⟨-, ⟨c, op, rfl⟩ | ⟨i, f, effect⟩⟩
  · exact Nat.zero_le 256
  · rw [State.readyCycle_eq]
    exact inRange
  · exact inRange
  · rw [State.enterHalted_pc, State.latched_pc]
    exact inRange
  · exact f.pc_le_of_effect effect

/-- The length of a fetched instruction that is neither HLT nor RET, by the format of its opcode (30_encoding.md R90). -/
theorem Fetched.length_of_notMem_zOpcodes {s : State} {i : Instr} (f : Fetched s i) (operands : s.byteAt 0 ∉ zOpcodes) :
    (encode i).length = if s.byteAt 0 ∈ rOpcodes s.cfg.extAlu then 2 else 3 := by
  rw [encode_length, ← f.1]
  split
  case isTrue one => rw [operandCount_of_mem_rOpcodes one]
  case isFalse two =>
    rcases f.format with ⟨z, -⟩ | ⟨one, -⟩ | ⟨rr, -⟩ | ⟨ri, -⟩
    · exact absurd z operands
    · exact absurd one two
    · rw [operandCount_of_mem_rrOpcodes rr]
    · rw [operandCount_of_mem_riOpcodes ri]

/-- Of the instructions without operands, HLT never completes and RET redirects PC. -/
theorem Effect.opcode_notMem_zOpcodes {i : Instr} {s t : State} (effect : Effect i s t) (goesOn : i.opcode ∉ redirectOpcodes) :
    i.opcode ∉ zOpcodes := by
  cases i
  case hlt => exact effect.elim
  case ret => exact absurd (by decide) goesOn
  all_goals simp [Instr.opcode, zOpcodes]

/-- A JEQ with the Equal flag clear advances by its two bytes (44_control_transfer.md R262). -/
theorem Effect.pc_of_jeq_untaken {i : Instr} {s t : State} (effect : Effect i s t) (opcode : i.opcode = 0x55)
    (clear : s.equalFlag = false) : t.pc = s.pc + BitVec.ofNat 9 (encode i).length := by
  cases i <;> simp only [Instr.opcode, BitVec.reduceEq] at opcode
  obtain ⟨r, -, rfl⟩ := effect
  rw [clear]
  rfl

/-- A JNE with the Equal flag set advances by its two bytes (R263). -/
theorem Effect.pc_of_jne_untaken {i : Instr} {s t : State} (effect : Effect i s t) (opcode : i.opcode = 0x56)
    (set : s.equalFlag = true) : t.pc = s.pc + BitVec.ofNat 9 (encode i).length := by
  cases i <;> simp only [Instr.opcode, BitVec.reduceEq] at opcode
  obtain ⟨r, -, rfl⟩ := effect
  rw [set]
  rfl

/-- A running step with PC past address 255 is the fetch fault (R131). -/
theorem step_of_pc_past {s : State} (r : s.runs) (past : 255 < s.pc.toNat) :
    step s = .next { s with engine := .halted, haltCode := 3, haltPc := s.pc, haltOp := 0, outPort := none } := by
  have noByte : s.slot 0 = none := State.slot_of_gt past
  rw [step_undecoded r (State.fetchDecode_of_none noByte), State.latched, noByte]
  rfl

/-- Settles O30: a step that goes on is an effect, so PC advances exactly where it is not redirected, and at 256 the next fetch faults. -/
theorem pcAdvanceNeverWraps : Obligations.PcAdvanceNeverWraps := by
  intro s t r h running
  rcases step_halts_or_effect r h with ⟨c, op, rfl⟩ | ⟨i, f, effect⟩
  · cases running
  have inRange := f.pc_le_of_effect effect
  have ⟨opcode, fits, _⟩ := f
  have exact_of (e : t.pc = s.latched.pc + BitVec.ofNat 9 (encode i).length) : t.pc.toNat = s.pc.toNat + (encode i).length := by
    rw [e, State.latched_pc, toNat_pc_add fits]
  have length_of_jump (redirects : s.byteAt 0 ∈ rOpcodes s.cfg.extAlu) : (encode i).length = 2 := by
    rw [encode_length, ← opcode, operandCount_of_mem_rOpcodes redirects]
  refine ⟨fun goesOn => ⟨?_, inRange⟩, fun untaken => ⟨?_, inRange⟩, fun last => ?_⟩
  · rw [opcode] at goesOn
    have operands := effect.opcode_notMem_zOpcodes goesOn
    rcases effect.form.pc_cases with ⟨redirects, -⟩ | e
    · exact absurd redirects goesOn
    · rw [exact_of e, f.length_of_notMem_zOpcodes (opcode ▸ operands)]
  · rw [← State.equalFlag_eq] at untaken
    rcases untaken with ⟨jeq, flag⟩ | ⟨jne, flag⟩
    · rw [exact_of (effect.pc_of_jeq_untaken (opcode.symm.trans jeq) (s.equalFlag_latched.trans flag)),
        length_of_jump (by simp [rOpcodes, jeq])]
    · rw [exact_of (effect.pc_of_jne_untaken (opcode.symm.trans jne) (s.equalFlag_latched.trans flag)),
        length_of_jump (by simp [rOpcodes, jne])]
  · obtain ⟨-, inputs, -⟩ := effect.form.keeps
    have runs : t.runs := ⟨running, by rw [inputs, State.latched_inputs, r.2]⟩
    have pc : t.pc = 256 := BitVec.eq_of_toNat_eq last
    rw [step_of_pc_past runs (by omega), pc]

end Sys2Proof.Machine
end

section
/-! PROOFS. The invariant of the machine (Safety.lean): the reset state meets it, and each kind of step keeps it; the obligations O56 and
O57. -/

namespace Sys2Proof.Machine

/-! ## Reset and READY -/

/-- A reset state meets the invariant, whatever the host drives. -/
theorem inv_resetWith (c : Config) (p : Inputs) : ({ State.resetWith c with inputs := p } : State).Inv where
  memWf := rfl
  pcRange := Nat.zero_le 256
  codeRange := ⟨Nat.zero_le 7, (by decide : (0 : BitVec 4) ≠ 6)⟩
  recordClear := fun _ => ⟨rfl, rfl, rfl⟩
  recordPc := nofun
  readyFresh := fun _ => ⟨rfl, rfl, rfl⟩
  outPulse := nofun
  slotOrder := fun _ => rfl

/-- Settles O56: the reset state is one with no port driven. -/
theorem invariantHoldsAtReset : Obligations.InvariantHoldsAtReset :=
  fun c => inv_resetWith c .idle

/-- A READY cycle keeps the invariant: the host's write keeps memory canonical, and the run starts with the record clear. -/
theorem State.Inv.readyCycle {s : State} (inv : s.Inv) (ready : s.engine = .ready) : s.readyCycle.Inv := by
  have going : s.engine ≠ .halted := by rw [ready]; decide
  have noPulse : s.outPort = none := by
    cases e : s.outPort with
    | none => rfl
    | some v => cases ready.symm.trans (inv.outPulse v e).1
  rw [State.readyCycle_eq]
  exact {
    memWf := by
      dsimp only
      split
      · exact Memory.wf_write inv.memWf _ _
      · exact inv.memWf
    pcRange := inv.pcRange
    codeRange := inv.codeRange
    recordClear := fun _ => inv.recordClear going
    recordPc := fun halted => by
      dsimp only at halted
      rw [ready] at halted
      split at halted <;> cases halted
    readyFresh := fun _ => inv.readyFresh ready
    outPulse := fun v e => by
      cases noPulse.symm.trans e
    slotOrder := inv.slotOrder }

/-! ## RUNNING -/

/-- Slot 2 is latched only with slot 1 (10_state.md R36). -/
theorem State.slot_two_of_slot_one_none {s : State} (h : s.slot 1 = none) : s.slot 2 = none := by
  apply State.slot_of_gt
  by_contra inside
  rw [State.slot_of_le (by omega)] at h
  cases h

/-- The fetch keeps the invariant. -/
theorem State.Inv.latched {s : State} (inv : s.Inv) : s.latched.Inv where
  memWf := by simpa using inv.memWf
  pcRange := by simpa using inv.pcRange
  codeRange := by simpa using inv.codeRange
  recordClear := by simpa using inv.recordClear
  recordPc := by simpa using inv.recordPc
  readyFresh := by simpa using inv.readyFresh
  outPulse := by simp
  slotOrder := by
    unfold State.latched
    split
    · exact inv.slotOrder
    · exact State.slot_two_of_slot_one_none

/-- A halt entry keeps the invariant where no pulse is on and the code is not ERR_ALU_UNSUPPORTED. -/
theorem State.Inv.enterHalted {s : State} (inv : s.Inv) (noPulse : s.outPort = none) {c : HaltCode} (op : Byte)
    (produced : c.bits ≠ 6) : (s.enterHalted c op).Inv where
  memWf := inv.memWf
  pcRange := inv.pcRange
  codeRange := ⟨c.bits_toNat_le, produced⟩
  recordClear := fun going => absurd (State.enterHalted_engine ..) going
  recordPc := fun _ => rfl
  readyFresh := nofun
  outPulse := fun v e => by cases noPulse.symm.trans e
  slotOrder := inv.slotOrder

/-- An effect in RUNNING keeps the invariant, where it leaves PC in range: it writes memory at most by a store, and a pulse is the byte it
appends to the stream. -/
theorem State.Inv.effect {i : Instr} {s t : State} (inv : s.Inv) (running : s.engine = .running) (noPulse : s.outPort = none)
    (effect : Effect i s t) (inRange : t.pc.toNat ≤ 256) : t.Inv := by
  obtain ⟨latch, -, -, engine, code, haltPc, haltOp⟩ := effect.form.keeps
  rw [running] at engine
  have going : s.engine ≠ .halted := by rw [running]; decide
  exact {
    memWf := by
      rcases effect.form.mem_cases with e | ⟨a, v, -, e⟩ <;> rw [e]
      · exact inv.memWf
      · exact Memory.wf_write inv.memWf a v
    pcRange := inRange
    codeRange := code ▸ inv.codeRange
    recordClear := fun _ => by
      rw [code, haltPc, haltOp]
      exact inv.recordClear going
    recordPc := fun halted => by cases engine.symm.trans halted
    readyFresh := fun ready => by cases engine.symm.trans ready
    outPulse := fun v pulse => by
      rcases effect.form.out_cases with ⟨r, -, stream, port⟩ | ⟨-, port⟩
      · cases port.symm.trans pulse
        exact ⟨engine, by rw [stream, List.getLast?_concat]⟩
      · cases (port.trans noPulse).symm.trans pulse
    slotOrder := latch ▸ inv.slotOrder }

/-- Settles O57: each kind of step keeps the invariant; that a running step never halts with code 6 is O36. -/
theorem stepKeepsInvariant : Obligations.StepKeepsInvariant := by
  intro s t inv h
  rcases step_cases h with ⟨-, rfl⟩ | ⟨-, ready, rfl⟩ | ⟨-, -, rfl⟩ | ⟨runs, ⟨c, op, rfl⟩ | ⟨i, f, effect⟩⟩
  · exact inv_resetWith s.cfg s.inputs
  · exact inv.readyCycle ready
  · exact inv
  · exact inv.latched.enterHalted s.latched_outPort op fun unsupported =>
      unsupportedTagUnreachable.2 s runs ⟨_, h, State.enterHalted_engine .., unsupported⟩
  · exact inv.latched.effect (s.latched_engine.trans runs.1) s.latched_outPort effect (f.pc_le_of_effect effect)

end Sys2Proof.Machine
end

section
/-! PROOFS. Stores and what reads them back (20_memory.md R61 to R75, 43_stack.md R233, 44_control_transfer.md R252): a write seen by
the next read, by POP, by RET and by the next fetch; and the obligations O17, O20 and O43 to O45. -/

namespace Sys2Proof.Machine

/-- Reduction modulo 256, as a number (42_alu.md R180). -/
@[simp] theorem mod256_toNat (n : Nat) : (mod256 n).toNat = n % 256 := BitVec.toNat_ofNat n 8

/-! ## Reading after a write -/

/-- A cell of a canonical memory reads as what was written to it (R63). -/
theorem State.memRead_memWrite_same {s : State} (wf : Memory.wf s.mem = true) (a v : Byte) : (s.memWrite a v).memRead a = v :=
  Memory.read_write_same wf a v

/-- A write changes no other cell. -/
theorem State.memRead_memWrite_other (s : State) {a b : Byte} (v : Byte) (other : b ≠ a) :
    (s.memWrite a v).memRead b = s.memRead b :=
  Memory.read_write_other s.mem a b v other

/-- Settles O43: the cell itself, every other cell, and the canonical form. -/
theorem memoryWriteSetsOneCell : Obligations.MemoryWriteSetsOneCell := by
  intro s a b v wf
  refine ⟨?_, Memory.wf_write wf a v⟩
  split
  case isTrue same => rw [same, State.memRead_memWrite_same wf]
  case isFalse other => exact s.memRead_memWrite_other v other

/-! ## Which steps write memory -/

/-- An instruction that stores is PUSH or CALL, and stores at the decremented SP (R61). -/
theorem storeAddress_eq_some {i : Instr} {s : State} {a : Byte} (h : storeAddress i s = some a) :
    (i.opcode = 0x45 ∨ i.opcode = 0x50) ∧ a = s.reg 7 - 1 := by
  cases i
  case push => exact ⟨.inl rfl, (Option.some.inj h).symm⟩
  case call => exact ⟨.inr rfl, (Option.some.inj h).symm⟩
  all_goals cases h

/-- Settles O44: reset, the host's write in READY, and the store of an instruction are the only steps that write memory. -/
theorem memoryChangesOnlyByStores : Obligations.MemoryChangesOnlyByStores := by
  intro s t a h changed
  rcases step_cases h with ⟨rst, -⟩ | ⟨-, ready, rfl⟩ | ⟨-, -, rfl⟩ | ⟨runs, ⟨c, op, rfl⟩ | ⟨i, f, effect⟩⟩
  · exact .inl rst
  · refine .inr (.inl ⟨ready, ?_⟩)
    rw [State.readyCycle_eq, State.memRead, State.memRead] at changed
    dsimp only at changed
    split at changed
    case isTrue write => exact ⟨write, by_contra fun other => changed (Memory.read_write_other _ _ _ _ other)⟩
    case isFalse => exact absurd rfl changed
  · exact absurd rfl changed
  · exact absurd (s.memRead_latched a) changed
  · refine .inr (.inr ⟨runs.1, ?_⟩)
    rcases effect.form.mem_cases with same | ⟨b, v, store, written⟩
    · rw [State.memRead, same, State.latched_mem] at changed
      exact absurd rfl changed
    · obtain ⟨opcode, rfl⟩ := storeAddress_eq_some store
      refine ⟨f.1 ▸ opcode, by_contra fun other => changed ?_⟩
      rw [State.memRead, written, State.latched_mem, State.reg_latched]
      exact Memory.read_write_other s.mem _ a v other

/-! ## PUSH, then POP -/

/-- Writing a register with its own byte changes nothing. -/
theorem State.setReg_reg_self (s : State) (r : Reg) : s.setReg r (s.reg r) = s := by
  rw [State.setReg, State.reg, Fin.getElem_fin, Vector.set_getElem_self]

/-- SP can be incremented after a decrement from at least 1. -/
theorem sub_one_ne_max {v : Byte} (room : v ≠ 0) : v - 1 ≠ 255 := by
  intro e
  exact room (by rw [← BitVec.sub_add_cancel v 1, e]; rfl)

/-- The state a PUSH leaves that is not stopped by SP (R230). -/
def State.pushed (s : State) (r : Reg) : State :=
  ((s.setReg 7 (s.reg 7 - 1)).memWrite (s.reg 7 - 1) ((s.setReg 7 (s.reg 7 - 1)).reg r)).advance 2

theorem exec_push_eq_pushed {s : State} (room : s.reg 7 ≠ 0) (r : Reg) : exec (.push (regByte r)) s = .next (s.pushed r) :=
  exec_push_regByte room r

@[simp] theorem State.pushed_sp (s : State) (r : Reg) : (s.pushed r).reg 7 = s.reg 7 - 1 := by
  rw [State.pushed, State.reg_advance, State.reg_memWrite, State.reg_setReg_same]

/-- The cell at SP holds what the pushed register holds after the PUSH, R7 too. -/
theorem State.memRead_pushed {s : State} (wf : Memory.wf s.mem = true) (r : Reg) :
    (s.pushed r).memRead (s.reg 7 - 1) = (s.pushed r).reg r :=
  State.memRead_memWrite_same (s := s.setReg 7 (s.reg 7 - 1)) wf _ _

/-- The pushed register holds the decremented SP if it is R7, and otherwise its old byte. -/
theorem State.reg_pushed (s : State) (r : Reg) : (s.pushed r).reg r = if r = 7 then s.reg 7 - 1 else s.reg r := by
  split
  case isTrue r7 => rw [r7, State.pushed_sp]
  case isFalse other => exact s.reg_setReg_other 7 r _ other

/-- A POP that finds its register's own byte in the cell only increments SP (R231). -/
theorem exec_pop_of_same {s : State} {r : Reg} (same : s.memRead (s.reg 7) = s.reg r) (below : s.reg 7 ≠ 255) :
    exec (.pop (regByte r)) s = .next ((s.setReg 7 (s.reg 7 + 1)).advance 2) := by
  have pop := exec_pop_regByte (s := s) (a := r)
  rw [same, State.setReg_reg_self] at pop
  exact pop below

/-- Settles O17: the POP finds in the cell what its register holds, and its increment undoes the decrement. -/
theorem pushThenPopRestores : Obligations.PushThenPopRestores := by
  intro s r wf room
  have same : (s.pushed r).memRead ((s.pushed r).reg 7) = (s.pushed r).reg r := by
    rw [State.pushed_sp, State.memRead_pushed wf]
  refine ⟨_, _, exec_push_eq_pushed room r, exec_pop_of_same same (s.pushed_sp r ▸ sub_one_ne_max room), ?_, ?_, ?_⟩
  · rw [State.pushed_sp, BitVec.sub_add_cancel]
    change (s.regs.set 7 (s.reg 7 - 1)).set 7 (s.regs[7]) = s.regs
    rw [Vector.set_set, Vector.set_getElem_self]
  · change s.pc + 2 + 2 = s.pc + 4
    rw [BitVec.add_assoc]
    rfl
  · exact (State.memRead_pushed wf r).trans (s.reg_pushed r)

/-! ## CALL, then RET -/

/-- Settles O20: RET reads the return address that CALL stored, which fits a byte, and its increment undoes the decrement. -/
theorem retUndoesCall : Obligations.RetUndoesCall := by
  intro s r wf early room
  refine ⟨_, exec_call_regByte (by omega) room r, fun t' sp cell => ?_⟩
  have sp' : t'.reg 7 = s.reg 7 - 1 := sp
  have target : t'.memRead (t'.reg 7) = mod256 (s.pc.toNat + 2) := by
    rw [sp']
    exact cell.trans (State.memRead_memWrite_same (s := s.setReg 7 _) wf _ _)
  refine ⟨_, exec_ret (sp' ▸ sub_one_ne_max room), ?_, ?_⟩
  · rw [State.jump_pc, target, BitVec.toNat_setWidth, mod256_toNat]
    omega
  · change ((t'.setReg 7 (t'.reg 7 + 1)).jump _).reg 7 = s.reg 7
    rw [State.reg_jump, State.reg_setReg_same, sp', BitVec.sub_add_cancel]

/-! ## A store, then the fetch -/

/-- The fetch reads a cell in the slot that lies at it (40_execute_cycle.md R131, R132). -/
theorem State.slot_eq_memRead {s : State} {k : Nat} {a : Byte} (at_cell : s.pc.toNat + k = a.toNat) : s.slot k = some (s.memRead a) := by
  have inside : s.pc.toNat + k ≤ 255 := at_cell ▸ Nat.le_of_lt_succ a.isLt
  rw [State.slot_of_le inside, at_cell, mod256, BitVec.ofNat_toNat, BitVec.setWidth_eq]

/-- Settles O45: the next fetch reads the stored byte in whichever slot lies at the cell; `CALL R7` goes to the cell, which is slot 0. -/
theorem storeSeenByNextFetch : Obligations.StoreSeenByNextFetch := by
  intro s r wf room
  have called : ((s.setReg 7 (s.reg 7 - 1)).memWrite (s.reg 7 - 1) (mod256 (s.pc.toNat + 2))).memRead (s.reg 7 - 1) =
      mod256 (s.pc.toNat + 2) := State.memRead_memWrite_same (s := s.setReg 7 _) wf _ _
  refine ⟨⟨_, exec_push_eq_pushed room r, rfl, fun k cell => ?_⟩,
    fun fits => ⟨_, exec_call_regByte fits room r, rfl, fun k cell => ?_, fun r7 => ?_⟩⟩
  · exact (State.slot_eq_memRead cell).trans (congrArg some (State.memRead_pushed wf r))
  · exact (State.slot_eq_memRead cell).trans (congrArg some called)
  · subst r7
    refine (State.slot_eq_memRead (a := s.reg 7 - 1) ?_).trans (congrArg some called)
    rw [State.jump_pc, State.reg_setReg_same, BitVec.toNat_setWidth]
    omega

end Sys2Proof.Machine
end

section
/-! PROOFS. The output stream over a whole step (10_state.md R33, R40), what a step does not depend on (R36, R41), and a jump to itself
(70_reset_and_hazards.md R343); the obligations O24 and O46 to O48. -/

namespace Sys2Proof.Machine

/-! ## Output -/

/-- A running step is a PRN that emits its register, or leaves the output stream and ends the pulse (R163). -/
theorem step_output {s t : State} (r : s.runs) (h : step s = .next t) :
    (∃ q, Fetched s (.prn (regByte q)) ∧ t.out = s.out ++ [s.reg q] ∧ t.outPort = some (s.reg q)) ∨
      (t.out = s.out ∧ t.outPort = none) := by
  rcases step_halts_or_effect r h with ⟨c, op, rfl⟩ | ⟨i, f, effect⟩
  · exact .inr ⟨s.latched_out, s.latched_outPort⟩
  · rcases effect.form.out_cases with ⟨q, rfl, stream, port⟩ | ⟨stream, port⟩
    · rw [State.latched_out, State.reg_latched] at stream
      rw [State.reg_latched] at port
      exact .inl ⟨q, f, stream, port⟩
    · exact .inr ⟨stream.trans s.latched_out, port.trans s.latched_outPort⟩

/-- A PRN of a legal register is fetched exactly where its two bytes lie at PC. -/
theorem fetched_prn_iff {s : State} {q : Reg} :
    Fetched s (.prn (regByte q)) ↔ s.pc.toNat + 1 ≤ 255 ∧ s.byteAt 0 = 0x47 ∧ s.byteAt 1 = regByte q :=
  ⟨fun ⟨opcode, fits, _, operand⟩ => ⟨Nat.le_of_succ_le_succ fits, opcode, operand.symm⟩,
    fun ⟨fits, opcode, operand⟩ => ⟨opcode, Nat.succ_le_succ fits, nofun, operand.symm⟩⟩

/-- A running step that fetches a PRN of a legal register pulses out_valid with its byte. -/
theorem outPort_of_fetched_prn {s t : State} {q : Reg} (r : s.runs) (h : step s = .next t) (f : Fetched s (.prn (regByte q))) :
    t.outPort = some (s.reg q) := by
  rw [step_decoded r (State.fetchDecode_eq_ok_iff.mpr f), exec_prn_regByte] at h
  cases h
  exact congrArg some (s.reg_latched q)

/-- Settles O46: a running step appends what it pulses with, and pulses exactly for a fetched PRN of a legal register; READY and HALTED keep
the stream, and a reset empties it. -/
theorem outputOnlyByPrn : Obligations.OutputOnlyByPrn := by
  refine ⟨fun s t r h => ⟨?_, fun v => ⟨fun pulse => ?_, fun ⟨fits, opcode, q, operand, value⟩ => ?_⟩⟩, fun s t idle rst h => ?_,
    fun s t rst h => ?_⟩
  · rcases step_output r h with ⟨q, -, stream, port⟩ | ⟨stream, port⟩ <;> rw [stream, port]
    · rfl
    · exact (List.append_nil _).symm
  · rcases step_output r h with ⟨q, f, -, port⟩ | ⟨-, port⟩ <;> cases port.symm.trans pulse
    obtain ⟨fits, opcode, operand⟩ := fetched_prn_iff.mp f
    exact ⟨fits, opcode, q, operand, rfl⟩
  · rw [outPort_of_fetched_prn r h (fetched_prn_iff.mpr ⟨fits, opcode, operand⟩)]
    exact congrArg some value
  · rcases step_cases h with ⟨on, -⟩ | ⟨-, -, rfl⟩ | ⟨-, -, rfl⟩ | ⟨runs, -⟩
    · exact absurd (rst.symm.trans on) Bool.false_ne_true
    · rw [State.readyCycle_eq]
      exact ⟨rfl, rfl⟩
    · exact ⟨rfl, rfl⟩
    · exact absurd runs.1 idle
  · rw [step_rst rst] at h
    cases h
    exact ⟨rfl, rfl⟩

/-! ## The latch and the ports -/

/-- The bytes at PC do not depend on the latch or the ports. -/
@[simp] theorem State.slot_rewired (s : State) (l : Latch) (p : Inputs) (k : Nat) : (s.rewired l p).slot k = s.slot k := rfl

/-- Nor does the instruction a step decodes: it reads the bytes latched in this step (R36). -/
@[simp] theorem State.fetchDecode_rewired (s : State) (l : Latch) (p : Inputs) : (s.rewired l p).fetchDecode = s.fetchDecode := by
  cases e : s.slot 0 with
  | none => rw [State.fetchDecode_of_none e, State.fetchDecode_of_none ((s.slot_rewired l p 0).trans e)]
  | some op =>
    rw [State.fetchDecode_of_some e, State.fetchDecode_of_some ((s.slot_rewired l p 0).trans e)]
    rfl

/-- The fetch does the same on a state with another latch and other ports. -/
theorem State.latched_rewired (s : State) (l : Latch) (p : Inputs) :
    (s.rewired l p).latched = s.latched.rewired (s.rewired l p).latched.latch p := by
  unfold State.latched
  rw [State.slot_rewired]
  cases s.slot 0 <;> rfl

/-- The latch a fetch leaves does not depend on the ports. -/
theorem State.latched_latch_rewired (s : State) (p : Inputs) : (s.rewired s.latch p).latched.latch = s.latched.latch := by
  unfold State.latched
  rw [State.slot_rewired]
  cases s.slot 0 <;> rfl

/-- So a running step does the same, up to the latch the fetch leaves (R36, R41). -/
theorem step_rewired {s t : State} (l : Latch) {p : Inputs} (r : s.runs) (rst : p.rst = false) (h : step s = .next t) :
    step (s.rewired l p) = .next (t.rewired (s.rewired l p).latched.latch p) := by
  have r' : (s.rewired l p).runs := ⟨r.1, rst⟩
  cases d : s.fetchDecode with
  | error e =>
    rw [step_undecoded r d] at h
    cases h
    rw [step_undecoded r' ((s.fetchDecode_rewired l p).trans d), State.latched_rewired]
    rfl
  | ok i =>
    rw [step_decoded r d] at h
    rw [step_decoded r' ((s.fetchDecode_rewired l p).trans d), State.latched_rewired]
    exact exec_rewired _ p h

/-- After a running step the latch is as the fetch left it, and the ports are as they were. -/
theorem step_keeps_latch_and_inputs {s t : State} (r : s.runs) (h : step s = .next t) :
    t.latch = s.latched.latch ∧ t.inputs = s.inputs := by
  rcases step_halts_or_effect r h with ⟨c, op, rfl⟩ | ⟨i, -, effect⟩
  · exact ⟨rfl, s.latched_inputs⟩
  · obtain ⟨latch, inputs, -⟩ := effect.form.keeps
    exact ⟨latch, inputs.trans s.latched_inputs⟩

/-- Settles O47: a reset sets the latch, READY and HALTED keep it, and a running step does not read what it was. -/
theorem latchIsInvisible : Obligations.LatchIsInvisible := by
  intro s t l h
  change ∃ l', step (s.rewired l s.inputs) = .next (t.rewired l' t.inputs)
  rcases step_cases h with ⟨rst, rfl⟩ | ⟨rst, ready, rfl⟩ | ⟨rst, halted, rfl⟩ | ⟨runs, -⟩
  · exact ⟨_, step_rst (s := s.rewired l s.inputs) rst⟩
  · refine ⟨l, (step_ready (s := s.rewired l s.inputs) rst ready).trans ?_⟩
    rw [State.readyCycle_eq, State.readyCycle_eq]
    rfl
  · exact ⟨l, step_halted (s := t.rewired l t.inputs) rst halted⟩
  · rw [(step_keeps_latch_and_inputs runs h).2]
    exact ⟨_, step_rewired l runs runs.2 h⟩

/-- Settles O48: HALTED keeps the state under any ports, and a running step does not read them. -/
theorem hostPortsIgnoredOutsideReady : Obligations.HostPortsIgnoredOutsideReady := by
  intro s t p notReady rst rst' h
  rcases step_cases h with ⟨on, -⟩ | ⟨-, ready, -⟩ | ⟨-, halted, rfl⟩ | ⟨runs, -⟩
  · exact absurd (rst.symm.trans on) Bool.false_ne_true
  · exact absurd ready notReady
  · exact step_halted rst' halted
  · have same := step_rewired s.latch runs rst' h
    rw [State.latched_latch_rewired, ← (step_keeps_latch_and_inputs runs h).1] at same
    exact same

/-! ## A jump to itself -/

/-- The block runs a JMP at PC through a register that holds PC. -/
def State.SelfJump (s : State) (r : Reg) : Prop :=
  s.runs ∧ s.codeIs [0x54, regByte r] ∧ (s.reg r).setWidth 9 = s.pc

/-- The step of a self-jump changes nothing but the fetched state's fields: it is a self-jump again, at the same PC (R261). -/
theorem State.SelfJump.step {s : State} {r : Reg} (j : s.SelfJump r) : step s = .next s.latched ∧ s.latched.SelfJump r := by
  obtain ⟨runs, code, target⟩ := j
  refine ⟨?_, ?_, ?_, ?_⟩
  · rw [stepRuns_encode (i := .jmp (regByte r)) nofun runs code, exec_jmp_regByte, State.reg_latched, State.jump, target,
      ← State.latched_pc]
  · exact ⟨s.latched_engine.trans runs.1, s.latched_inputs ▸ runs.2⟩
  · rw [State.codeIs, State.latched_mem, State.latched_pc]
    exact code
  · rw [State.reg_latched, State.latched_pc, target]

/-- A run goes on from the state its first step leaves. -/
theorem run_succ_of_step {s t : State} {n : Nat} (h : step s = .next t) :
    Host.Core.run core (n + 1) s = Host.Core.run core n t :=
  (Host.Core.run.eq_2 core s n).trans (by rw [show core.step s = .next t from h])

/-- Any number of steps of a self-jump ends in one at the same PC. -/
theorem State.SelfJump.run {r : Reg} (n : Nat) {s : State} (j : s.SelfJump r) :
    ∃ t, Host.Core.run core n s = .next t ∧ t.SelfJump r ∧ t.pc = s.pc := by
  induction n generalizing s with
  | zero => exact ⟨s, rfl, j, rfl⟩
  | succ n ih =>
    obtain ⟨once, again⟩ := j.step
    obtain ⟨t, rest, last, pc⟩ := ih again
    refine ⟨t, ?_, last, pc.trans s.latched_pc⟩
    rw [run_succ_of_step once]
    exact rest

/-- Settles O24: after any number of steps the block runs the same jump. -/
theorem selfJumpNeverHalts : Obligations.SelfJumpNeverHalts := by
  intro s r n runs code target
  obtain ⟨t, run, last, pc⟩ := State.SelfJump.run n ⟨runs, code, target⟩
  exact ⟨t, run, last.1.1, pc⟩

end Sys2Proof.Machine
end

section
/-! PROOFS. Reset, loading an image and the first instruction (70_reset_and_hazards.md R320 to R324): the memory an image leaves, and the
obligations O49 and O51 to O53. -/

namespace Sys2Proof.Machine

/-! ## Reset -/

/-- Settles O49: a reset is `State.onRst`, without it HALTED keeps the state, and the power-on state is a reset state. -/
theorem resetMakesFreshEngine : Obligations.ResetMakesFreshEngine := by
  refine ⟨fun s rst => ⟨_, step_rst rst⟩, fun s t halted h left => ?_, Config.default, rfl⟩
  cases rst : s.inputs.rst with
  | true => rfl
  | false =>
    rw [step_halted rst halted] at h
    cases h
    exact absurd halted left

/-- The flags register is 0 after reset, so the Equal flag is clear (R321). -/
@[simp] theorem State.equalFlag_resetWith (c : Config) : (State.resetWith c).equalFlag = false := by
  obtain ⟨-, -, flags, -⟩ := resetValues c
  rw [State.equalFlag_eq, flags]
  decide

/-- Settles O51: the Equal flag is clear, so JEQ advances and JNE jumps. -/
theorem branchesAfterReset : Obligations.BranchesAfterReset := by
  intro c r
  rw [exec_jeq_regByte, exec_jne_regByte, State.equalFlag_resetWith]
  exact ⟨rfl, rfl⟩

/-! ## The memory an image leaves -/

/-- Memory after the bytes are written to addresses `a`, `a + 1`, …: what `loadBytes` does to it (`loadBytes_eq`). -/
def Memory.writeBytes : Nat → List Byte → List Host.Cell → List Host.Cell
  | _, [], m => m
  | a, b :: bs, m => Memory.writeBytes (a + 1) bs (Memory.write m (mod256 a) b)

/-- Loading keeps the canonical form. -/
theorem Memory.wf_writeBytes {m : List Host.Cell} (wf : Memory.wf m = true) (a : Nat) (bs : List Byte) :
    Memory.wf (Memory.writeBytes a bs m) = true := by
  induction bs generalizing a m with
  | nil => exact wf
  | cons b bs ih => exact ih (Memory.wf_write wf _ _) (a + 1)

/-- Each byte of an image inside memory stands at its address, and the other cells are as before (R322). -/
theorem Memory.read_writeBytes {m : List Host.Cell} (wf : Memory.wf m = true) {a : Nat} {bs : List Byte} (fits : a + bs.length ≤ 256)
    (x : Byte) :
    Memory.read (Memory.writeBytes a bs m) x =
      if a ≤ x.toNat then bs[x.toNat - a]?.getD (Memory.read m x) else Memory.read m x := by
  induction bs generalizing a m with
  | nil => simp [Memory.writeBytes]
  | cons b bs ih =>
    rw [List.length_cons] at fits
    have address : (mod256 a).toNat = a := by
      rw [mod256_toNat]
      omega
    rw [Memory.writeBytes, ih (Memory.wf_write wf _ _) (by omega)]
    rcases Nat.lt_trichotomy x.toNat a with below | rfl | above
    · have other : x ≠ mod256 a := fun e => by rw [e, address] at below; omega
      rw [if_neg (by omega), if_neg (by omega), Memory.read_write_other _ _ _ _ other]
    · have same : mod256 x.toNat = x := BitVec.eq_of_toNat_eq address
      rw [if_neg (by omega), if_pos le_rfl, Nat.sub_self, same, Memory.read_write_same wf]
      rfl
    · have other : x ≠ mod256 a := fun e => by rw [e, address] at above; omega
      obtain ⟨k, e⟩ : ∃ k, x.toNat - a = k + 1 := ⟨x.toNat - a - 1, by omega⟩
      rw [if_pos (by omega), if_pos (by omega), Memory.read_write_other _ _ _ _ other, e, List.getElem?_cons_succ,
        show x.toNat - (a + 1) = k by omega]

/-- The host's writes in READY complete, one a step, and change memory and the ports only. -/
theorem loadBytes_eq {s : State} (ready : s.engine = .ready) (a : Nat) (bs : List Byte) :
    ∃ p, loadBytes a bs s = .next { s with mem := Memory.writeBytes a bs s.mem, inputs := p } := by
  induction bs generalizing a s with
  | nil => exact ⟨s.inputs, rfl⟩
  | cons b bs ih =>
    obtain ⟨p, rest⟩ := ih (s := (s.drive (.load (mod256 a) b)).memWrite (mod256 a) b) ready (a + 1)
    refine ⟨p, ?_⟩
    rw [loadBytes, step_hostWrite ready]
    exact rest

/-- Loading an image that fits, after a reset. -/
theorem loadImage_resetWith (c : Config) {img : List Byte} (fits : img.length ≤ 256) :
    ∃ p, loadImage 0 img (State.resetWith c) =
      .next { State.resetWith c with mem := Memory.writeBytes 0 img [], inputs := p } := by
  rw [loadImage_fits _ (by omega)]
  exact loadBytes_eq rfl 0 img

/-- Settles O52: the writes complete and leave the image, and the test of its length comes before them. -/
theorem loadPlacesImage : Obligations.LoadPlacesImage := by
  refine ⟨fun c img fits => ?_, fun s img long => loadImage_tooLong s (by omega)⟩
  obtain ⟨p, loaded⟩ := loadImage_resetWith c fits
  refine ⟨_, loaded, rfl, rfl, rfl, fun a => ?_⟩
  rw [State.memRead, Memory.read_writeBytes rfl (by omega), if_pos (Nat.zero_le _), List.getD_eq_getElem?_getD]
  rfl

/-! ## The first instruction -/

/-- Bytes lie in memory where each of them is read at its address. -/
theorem codeAt_of_read {m : List Host.Cell} {a : Nat} {bs : List Byte}
    (read : ∀ k b, bs[k]? = some b → a + k ≤ 255 ∧ Memory.read m (BitVec.ofNat 8 (a + k)) = b) : codeAt m a bs = true := by
  induction bs generalizing a with
  | nil => rfl
  | cons b bs ih =>
    obtain ⟨inside, here⟩ := read 0 b rfl
    have later : codeAt m (a + 1) bs = true := ih fun k c h => by
      rw [Nat.add_assoc, Nat.add_comm 1 k]
      exact read (k + 1) c h
    simpa [codeAt, later] using And.intro inside here

/-- A loaded image lies in memory from its first byte on. -/
theorem codeAt_writeBytes_prefix {bs rest : List Byte} (fits : (bs ++ rest).length ≤ 256) :
    codeAt (Memory.writeBytes 0 (bs ++ rest) []) 0 bs = true := by
  refine codeAt_of_read fun k b h => ?_
  have short : k < bs.length := (List.getElem?_eq_some_iff.mp h).1
  rw [List.length_append] at fits
  have inside : 0 + k ≤ 255 := by omega
  have address : (BitVec.ofNat 8 (0 + k)).toNat = k := by
    rw [BitVec.toNat_ofNat]
    omega
  refine ⟨inside, ?_⟩
  rw [Memory.read_writeBytes rfl (by rw [List.length_append]; omega), address, if_pos (Nat.zero_le k), Nat.sub_zero,
    List.getElem?_append_left short, h]
  rfl

/-- Settles O53: the loaded block starts at PC 0 with the image there, so its step runs the instruction the image begins with. -/
theorem loadedInstructionRunsFirst : Obligations.LoadedInstructionRunsFirst := by
  intro c i rest _ enabled fits
  obtain ⟨p, loaded⟩ := loadImage_resetWith c fits
  exact ⟨_, _, loaded, step_start rfl, ⟨rfl, rfl⟩, rfl, rfl,
    stepRuns_encode enabled ⟨rfl, rfl⟩ (codeAt_writeBytes_prefix fits)⟩

end Sys2Proof.Machine
end

section
/-! PROOFS. The results of the ALU as numbers (42_alu.md R184), and the obligation O14. -/

namespace Sys2Proof.Machine

/-- A number reduces to a byte where its remainder is the byte's number. -/
theorem mod256_eq {n : Nat} {v : Byte} (h : n % 256 = v.toNat) : mod256 n = v := BitVec.eq_of_toNat_eq ((mod256_toNat n).trans h)

/-- The quotient and the remainder of a byte are bytes, and the remainder is less than the divisor (R201, R202). -/
theorem quotient_remainder_laws {a b : Byte} (nonzero : b ≠ 0) :
    a.toNat = (mod256 (a.toNat / b.toNat)).toNat * b.toNat + (mod256 (a.toNat % b.toNat)).toNat ∧
      (mod256 (a.toNat % b.toNat)).toNat < b.toNat ∧ (mod256 (a.toNat / b.toNat)).toNat ≤ a.toNat := by
  have positive : 0 < b.toNat := Nat.pos_of_ne_zero fun e => nonzero (BitVec.eq_of_toNat_eq e)
  have quotient : a.toNat / b.toNat ≤ a.toNat := Nat.div_le_self ..
  have remainder : a.toNat % b.toNat < b.toNat := Nat.mod_lt _ positive
  have byte : a.toNat < 256 ∧ b.toNat < 256 := ⟨a.isLt, b.isLt⟩
  rw [mod256_toNat, mod256_toNat, Nat.mod_eq_of_lt (by omega), Nat.mod_eq_of_lt (by omega)]
  exact ⟨(Nat.div_add_mod' ..).symm, remainder, quotient⟩

/-- A left shift by 8 or more leaves no bit of the byte (R207). -/
theorem shl_of_ge {a b : Byte} (all : 8 ≤ b.toNat) : mod256 (a.toNat * 2 ^ b.toNat) = 0 := by
  have result := aluResult_shl a b
  rw [if_pos all] at result
  exact Except.ok.inj result

/-- So does a right shift (R208). -/
theorem shr_of_ge {a b : Byte} (all : 8 ≤ b.toNat) : mod256 (a.toNat / 2 ^ b.toNat) = 0 := by
  have result := aluResult_shr a b
  rw [if_pos all] at result
  exact Except.ok.inj result

/-- Settles O14: with `EXT_ALU` the ALU answers `aluResult` for every tag, row by row of the table of R184. -/
theorem aluFollowsIntegerLaws : Obligations.AluFollowsIntegerLaws := by
  intro a b
  have byte_a : a.toNat < 256 := a.isLt
  have byte_b : b.toNat < 256 := b.isLt
  have toNat_zero {v : Byte} (e : v = 0) : v.toNat = 0 := e ▸ rfl
  simp only [alu_ext]
  refine ⟨⟨_, rfl, mod256_toNat _, fun e => ?_, fun e => ?_⟩, ⟨_, rfl, mod256_toNat _, fun e => ?_⟩, ⟨_, rfl, ?_, fun e => ?_⟩,
    fun zero => ⟨if_pos zero, if_pos zero⟩,
    fun nonzero => ⟨_, _, if_neg nonzero, if_neg nonzero, quotient_remainder_laws nonzero⟩,
    ⟨_, rfl, fun _ => BitVec.getLsbD_and⟩, ⟨_, rfl, fun _ => BitVec.getLsbD_or⟩, ⟨_, rfl, fun _ => BitVec.getLsbD_xor⟩, ⟨_, rfl, ?_⟩,
    ⟨_, rfl, mod256_toNat _, shl_of_ge, fun e => ?_⟩, ⟨_, rfl, ?_, shr_of_ge, fun e => ?_⟩⟩
  · exact mod256_eq (by rw [toNat_zero e, Nat.add_zero, Nat.mod_eq_of_lt byte_a])
  · exact mod256_eq (by rw [toNat_zero e, Nat.zero_add, Nat.mod_eq_of_lt byte_b])
  · rcases e with e | e <;> simp [toNat_zero e, mod256]
  · rw [mod256_toNat]
    omega
  · exact mod256_eq (by rw [toNat_zero e, Nat.sub_zero, Nat.add_mod_right, Nat.mod_eq_of_lt byte_a])
  · rw [mod256_toNat, Nat.mod_eq_of_lt (by omega)]
  · exact mod256_eq (by rw [toNat_zero e, Nat.pow_zero, Nat.mul_one, Nat.mod_eq_of_lt byte_a])
  · rw [mod256_toNat, Nat.mod_eq_of_lt ((Nat.div_le_self ..).trans_lt byte_a)]
  · exact mod256_eq (by rw [toNat_zero e, Nat.pow_zero, Nat.div_one, Nat.mod_eq_of_lt byte_a])

end Sys2Proof.Machine
end

section
/-! PROOFS. The output ports in each engine state (10_state.md R30, R40, R41, 60_exceptions.md R299), and the obligation O58. -/

namespace Sys2Proof.Machine

/-- status_state tells the engine states apart (R30). -/
theorem Engine.status_inj {e f : Engine} : e.status = f.status ↔ e = f := by
  cases e <;> cases f <;> decide

/-- No engine state shows as 3. -/
theorem Engine.status_ne_three (e : Engine) : e.status ≠ 3 := by
  cases e <;> decide

/-- In READY and HALTED the host inspects a value (R41). -/
theorem Engine.inspect_of_stopped {α : Type} {e : Engine} (stopped : e = .ready ∨ e = .halted) (v : α) : e.inspect v = some v := by
  rcases stopped with rfl | rfl <;> rfl

/-- In RUNNING it inspects none. -/
theorem Engine.inspect_of_running {α : Type} {e : Engine} (running : e = .running) (v : α) : e.inspect v = none := by
  rw [running]
  rfl

/-- Settles O58: the ports show the state's own fields, the inspection ports through `Engine.inspect`. -/
theorem outputPortsByEngineState : Obligations.OutputPortsByEngineState := by
  intro s p r
  have halted_iff : s.outputs.statusState = 2 ↔ s.engine = .halted := Engine.status_inj (f := .halted)
  refine ⟨Engine.status_inj (f := .ready), Engine.status_inj (f := .running), halted_iff, s.engine.status_ne_three, ⟨rfl, rfl, rfl⟩,
    fun inv going => inv.recordClear (mt halted_iff.mpr going), ⟨_, exec_prn_regByte r s, rfl, rfl⟩, fun noPulse => ⟨?_, noPulse⟩,
    fun stopped => ?_, fun running => ?_⟩
  · exact congrArg Option.isSome noPulse
  · exact ⟨Engine.inspect_of_stopped stopped _, Engine.inspect_of_stopped stopped _, Engine.inspect_of_stopped stopped _⟩
  · exact ⟨Engine.inspect_of_running running _, Engine.inspect_of_running running _, Engine.inspect_of_running running _⟩

end Sys2Proof.Machine
end
